-- ==== Sys2Proof/Word.lean ====
section
/-! DEFINITION. The value types of the core (rules R9, R10 and R30 of spec/): bytes, 16-bit words and register indices.
Everything is unsigned; no operand of this instruction set is signed (R10). -/

namespace Sys2Proof

/-- `u8` of rule R10: a general register, a timer, one memory byte. -/
abbrev Byte := BitVec 8

/-- `u16` of rule R10: PC, I, a stack entry, an instruction word. -/
abbrev Word := BitVec 16

/-- The index of one of V0..VF (R30): a 4-bit register field selects any of the 16 (R93). -/
abbrev RegIdx := Fin 16

/-- VF, the flag register, is V[15] (R31). -/
abbrev vF : RegIdx := 15

end Sys2Proof
end

