-- ==== Sys2Proof/Config.lean ====
section
/-! DEFINITION. The fixed constants (rule R6) and the configuration parameters (rule R7) of the core, and its one free value,
the random byte (rules R8 and R45). -/

namespace Sys2Proof

/-- `RAM_SIZE` (R6, R60): addresses 0x000 to 0xFFF. -/
abbrev ramSize : Nat := 4096

/-- `STACK_DEPTH` (R6, R41). -/
abbrev stackDepth : Nat := 16

/-- `NKEYS` (R6, R42). -/
abbrev nKeys : Nat := 16

/-- The size of the built-in font at `FONT_BASE` = 0x000 (R6): 16 glyphs of 5 bytes. -/
abbrev fontBytes : Nat := 80

/-- The domain of `START_OFFSET` (R7). -/
inductive StartOffset where
  /-- 0x200, the default. -/
  | standard
  /-- 0x600, the alternate legacy profile. -/
  | legacy
deriving DecidableEq, Repr

/-- The address a program is loaded at, and PC after reset (R242, R244). -/
def StartOffset.word : StartOffset → Word
  | .standard => 0x200
  | .legacy => 0x600

/-- The domain of `CLEAR_WORD` (R7, R96). -/
inductive ClearWord where
  /-- 0x0000, the default, from the source's table. -/
  | zero
  /-- 0x00E0, the conventional CHIP-8 word. -/
  | e0
deriving DecidableEq, Repr

/-- The word that decodes as Clear (R95, R96). -/
def ClearWord.word : ClearWord → Word
  | .zero => 0x0000
  | .e0 => 0x00E0

/-- The domain of `LS_I_MODE` (R7, R176): what MemStore and MemLoad do to I. -/
inductive LsIMode where
  /-- I is not changed, the default. -/
  | keep
  /-- I becomes I + x + 1 modulo 2^16. -/
  | plusXPlus1
  /-- I becomes I + x modulo 2^16. -/
  | plusX
deriving DecidableEq, Repr

/-- The configuration of one machine, fixed for its life (R7, R46, R49). -/
structure Config where
  /-- `SCREEN_W`, the number of columns. -/
  screenW : Nat
  /-- `SCREEN_H`, the number of rows. -/
  screenH : Nat
  /-- `START_OFFSET`. -/
  startOffset : StartOffset
  /-- `CLEAR_WORD`. -/
  clearWord : ClearWord
  /-- `LS_I_MODE`. -/
  lsIMode : LsIMode
  /-- `FONT`, the 80 bytes reset writes at 0x000 (R47). -/
  font : Vector Byte fontBytes
deriving DecidableEq, Repr

/-- The part of R7's domains that the types do not say: each screen dimension is at least 1
(DESIGN CHOICE, assumption log entry 9). -/
def Config.wf (c : Config) : Bool :=
  decide (1 ≤ c.screenW) && decide (1 ≤ c.screenH)

/-- Glyphs 0 to 7 of the default font (R47's table). -/
def defaultFontLow : Vector Byte 40 := #v[
  0xF0, 0x90, 0x90, 0x90, 0xF0,
  0x20, 0x60, 0x20, 0x20, 0x70,
  0xF0, 0x10, 0xF0, 0x80, 0xF0,
  0xF0, 0x10, 0xF0, 0x10, 0xF0,
  0x90, 0x90, 0xF0, 0x10, 0x10,
  0xF0, 0x80, 0xF0, 0x10, 0xF0,
  0xF0, 0x80, 0xF0, 0x90, 0xF0,
  0xF0, 0x10, 0x20, 0x40, 0x40]

/-- Glyphs 8 to F of the default font (R47's table). -/
def defaultFontHigh : Vector Byte 40 := #v[
  0xF0, 0x90, 0xF0, 0x90, 0xF0,
  0xF0, 0x90, 0xF0, 0x10, 0xF0,
  0xF0, 0x90, 0xF0, 0x90, 0x90,
  0xE0, 0x90, 0xE0, 0x90, 0xE0,
  0xF0, 0x80, 0x80, 0x80, 0xF0,
  0xE0, 0x90, 0x90, 0x90, 0xE0,
  0xF0, 0x80, 0xF0, 0x80, 0xF0,
  0xF0, 0x80, 0xF0, 0x80, 0x80]

/-- The defaults of R7: a 64 by 32 screen, start at 0x200, Clear at 0x0000, I kept, the conventional font
(PRESUMED by the spec itself, assumption log entry 12). -/
def Config.default : Config where
  screenW := 64
  screenH := 32
  startOffset := .standard
  clearWord := .zero
  lsIMode := .keep
  font := defaultFontLow ++ defaultFontHigh

/-- FREE VALUE (R8, R45, R165): the random byte of the n-th STEP that the host's script does not itself supply one for.
It has no body, so no proof can see what it is: R165 lets a proof assume nothing of it. DESIGN CHOICE, assumption log entry 3. -/
opaque Config.randomByte : Nat → Byte

end Sys2Proof
end

