-- ==== Sys2Proof/Syntax.lean ====
section
/-! DEFINITION. The 35 instructions of spec/opcode_table.json, one constructor per row, in the table's order, under the
source's names (rules R22 and R100; the assembly of R105 stands in each docstring). Register fields are indices 0..15, `n` is a
row count 0..15, `kk` and `nnn` are the 8- and 12-bit constants (R91, R93). -/

namespace Sys2Proof

inductive Instr where
  /-- `CLS`, R180. -/
  | clear
  /-- `RET`, R133. -/
  | ret
  /-- `SYS nnn`, the deprecated machine-code call, R134. -/
  | call (nnn : BitVec 12)
  /-- `JP nnn`, R135. -/
  | jump (nnn : BitVec 12)
  /-- `CALL nnn`, R136. -/
  | callSub (nnn : BitVec 12)
  /-- `SE Vx, kk`, R137. -/
  | skipIfEq (x : RegIdx) (kk : Byte)
  /-- `SNE Vx, kk`, R138. -/
  | skipIfNeq (x : RegIdx) (kk : Byte)
  /-- `SE Vx, Vy`, R139. -/
  | skipIfRegEq (x y : RegIdx)
  /-- `LD Vx, kk`, R153. -/
  | setConst (x : RegIdx) (kk : Byte)
  /-- `ADD Vx, kk`, R154. -/
  | addConst (x : RegIdx) (kk : Byte)
  /-- `LD Vx, Vy`, R155. -/
  | copy (x y : RegIdx)
  /-- `OR Vx, Vy`, R156. -/
  | or (x y : RegIdx)
  /-- `AND Vx, Vy`, R157. -/
  | and (x y : RegIdx)
  /-- `XOR Vx, Vy`, R158. -/
  | xor (x y : RegIdx)
  /-- `ADD Vx, Vy`, R159. -/
  | addReg (x y : RegIdx)
  /-- `SUB Vx, Vy`, R160. -/
  | sub (x y : RegIdx)
  /-- `SHR Vx, Vy`, R161: the y field is encoded but not read. -/
  | shr (x y : RegIdx)
  /-- `SUBN Vx, Vy`, R162. -/
  | subN (x y : RegIdx)
  /-- `SHL Vx, Vy`, R163: the y field is encoded but not read. -/
  | shl (x y : RegIdx)
  /-- `SNE Vx, Vy`, R140. -/
  | skipIfRegNeq (x y : RegIdx)
  /-- `LD I, nnn`, R170. -/
  | setIndex (nnn : BitVec 12)
  /-- `JP V0, nnn`, R141. -/
  | jumpPlusV0 (nnn : BitVec 12)
  /-- `RND Vx, kk`, R165. -/
  | random (x : RegIdx) (kk : Byte)
  /-- `DRW Vx, Vy, n`, R181. -/
  | draw (x y : RegIdx) (n : Fin 16)
  /-- `SKP Vx`, R191. -/
  | skipIfKey (x : RegIdx)
  /-- `SKNP Vx`, R192. -/
  | skipIfNotKey (x : RegIdx)
  /-- `LD Vx, DT`, R195. -/
  | getDelay (x : RegIdx)
  /-- `LD Vx, K`, R194. -/
  | waitKey (x : RegIdx)
  /-- `LD DT, Vx`, R196. -/
  | setDelay (x : RegIdx)
  /-- `LD ST, Vx`, R197. -/
  | setSound (x : RegIdx)
  /-- `ADD I, Vx`, R171. -/
  | memAdd (x : RegIdx)
  /-- `LD F, Vx`, R172. -/
  | memFont (x : RegIdx)
  /-- `LD B, Vx`, R173. -/
  | bcd (x : RegIdx)
  /-- `LD [I], Vx`, R174. -/
  | memStore (x : RegIdx)
  /-- `LD Vx, [I]`, R175. -/
  | memLoad (x : RegIdx)
deriving DecidableEq, Repr

/-- What the decoder returns for a word (R94, R101, R104): one of the 35 instructions, or `Unknown(w)` returned as data. -/
inductive Decoded where
  /-- One of the 35 instructions. -/
  | instr (i : Instr)
  /-- A word that matches no row: the variant `Unknown(w)` of R95 (DESIGN CHOICE, assumption log entry 10). -/
  | unknown (w : Word)
deriving DecidableEq, Repr

end Sys2Proof
end

