-- ==== Sys2Proof/WellFormed.lean ====
section
/-! DEFINITION. When an instruction of `Instr` is one a word can stand for. The operand widths are in the types; what is left is
rule R97: the deprecated Call has every 0nnn word EXCEPT `CLEAR_WORD` and 0x00EE, which Clear and Return take first. -/

namespace Sys2Proof

/-- Well-formedness under a given `CLEAR_WORD`: Call's two excluded words are refused (R97); every operand of every other
instruction is legal (R99, R103). -/
def Instr.WellFormed (cw : ClearWord) : Instr → Bool
  | .call nnn => nnn.setWidth 16 != cw.word && nnn.setWidth 16 != (0x00EE : Word)
  | .clear => true
  | .ret => true
  | .jump _ => true
  | .callSub _ => true
  | .skipIfEq _ _ => true
  | .skipIfNeq _ _ => true
  | .skipIfRegEq _ _ => true
  | .setConst _ _ => true
  | .addConst _ _ => true
  | .copy _ _ => true
  | .or _ _ => true
  | .and _ _ => true
  | .xor _ _ => true
  | .addReg _ _ => true
  | .sub _ _ => true
  | .shr _ _ => true
  | .subN _ _ => true
  | .shl _ _ => true
  | .skipIfRegNeq _ _ => true
  | .setIndex _ => true
  | .jumpPlusV0 _ => true
  | .random _ _ => true
  | .draw _ _ _ => true
  | .skipIfKey _ => true
  | .skipIfNotKey _ => true
  | .getDelay _ => true
  | .waitKey _ => true
  | .setDelay _ => true
  | .setSound _ => true
  | .memAdd _ => true
  | .memFont _ => true
  | .bcd _ => true
  | .memStore _ => true
  | .memLoad _ => true

end Sys2Proof
end

