-- ==== Sys2Proof/Decode.lean ====
section
/-! DEFINITION. The decoder (rules R90 to R104) and, after it, the encoder written from the same formats (R92, R105).
The decoder is pure and total over the 16-bit words and reads nothing but `CLEAR_WORD` (R94). -/

namespace Sys2Proof

/-- `digit0 = w[15:12]`, the family (R9, R91). -/
def major (w : Word) : BitVec 4 := w.extractLsb' 12 4

/-- `x = w[11:8]`, the first register index (R91). -/
def fieldX (w : Word) : RegIdx := (w.extractLsb' 8 4).toFin

/-- `y = w[7:4]`, the second register index (R91). -/
def fieldY (w : Word) : RegIdx := (w.extractLsb' 4 4).toFin

/-- `digit3 = w[3:0]`, the BitOp sub-case or Draw's row count (R91). -/
def fieldN (w : Word) : BitVec 4 := w.extractLsb' 0 4

/-- `nnn = w[11:0]` (R91). -/
def fieldNNN (w : Word) : BitVec 12 := w.extractLsb' 0 12

/-- `kk = w[7:0]` (R91). -/
def fieldKK (w : Word) : Byte := w.extractLsb' 0 8

/-- The BitOp family, major nibble 8 (R95, R98): nine sub-cases, every other one Unknown. -/
def decodeBitOp (w : Word) : Decoded :=
  let x := fieldX w
  let y := fieldY w
  match fieldN w with
  | 0x0 => .instr (.copy x y)
  | 0x1 => .instr (.or x y)
  | 0x2 => .instr (.and x y)
  | 0x3 => .instr (.xor x y)
  | 0x4 => .instr (.addReg x y)
  | 0x5 => .instr (.sub x y)
  | 0x6 => .instr (.shr x y)
  | 0x7 => .instr (.subN x y)
  | 0xE => .instr (.shl x y)
  | _ => .unknown w

/-- The E family (R95, R98): two sub-opcodes, every other one Unknown. -/
def decodeKey (w : Word) : Decoded :=
  match fieldKK w with
  | 0x9E => .instr (.skipIfKey (fieldX w))
  | 0xA1 => .instr (.skipIfNotKey (fieldX w))
  | _ => .unknown w

/-- The F family (R95, R98): nine sub-opcodes, every other one Unknown. -/
def decodeMisc (w : Word) : Decoded :=
  let x := fieldX w
  match fieldKK w with
  | 0x07 => .instr (.getDelay x)
  | 0x0A => .instr (.waitKey x)
  | 0x15 => .instr (.setDelay x)
  | 0x18 => .instr (.setSound x)
  | 0x1E => .instr (.memAdd x)
  | 0x29 => .instr (.memFont x)
  | 0x33 => .instr (.bcd x)
  | 0x55 => .instr (.memStore x)
  | 0x65 => .instr (.memLoad x)
  | _ => .unknown w

/-- The families by major nibble, once `CLEAR_WORD` and 0x00EE are taken out (R95); the last arm is 0xF. -/
def decodeFamily (w : Word) : Decoded :=
  match major w with
  | 0x0 => .instr (.call (fieldNNN w))
  | 0x1 => .instr (.jump (fieldNNN w))
  | 0x2 => .instr (.callSub (fieldNNN w))
  | 0x3 => .instr (.skipIfEq (fieldX w) (fieldKK w))
  | 0x4 => .instr (.skipIfNeq (fieldX w) (fieldKK w))
  | 0x5 => if fieldN w = 0x0 then .instr (.skipIfRegEq (fieldX w) (fieldY w)) else .unknown w
  | 0x6 => .instr (.setConst (fieldX w) (fieldKK w))
  | 0x7 => .instr (.addConst (fieldX w) (fieldKK w))
  | 0x8 => decodeBitOp w
  | 0x9 => if fieldN w = 0x0 then .instr (.skipIfRegNeq (fieldX w) (fieldY w)) else .unknown w
  | 0xA => .instr (.setIndex (fieldNNN w))
  | 0xB => .instr (.jumpPlusV0 (fieldNNN w))
  | 0xC => .instr (.random (fieldX w) (fieldKK w))
  | 0xD => .instr (.draw (fieldX w) (fieldY w) (fieldN w).toFin)
  | 0xE => decodeKey w
  | _ => decodeMisc w

/-- `decode(w)` of R95, the first matching line winning. -/
def decode (cw : ClearWord) (w : Word) : Decoded :=
  if w = cw.word then .instr .clear
  else if w = 0x00EE then .instr .ret
  else decodeFamily w

/-- Two bytes in memory order make one word, the byte at the lower address being bits 15..8 (R63, R90). -/
def wordOfBytes (hi lo : Byte) : Word := hi ++ lo

/-- What decoding a byte sequence gives: every decoding consumes exactly one word (R90). -/
inductive ByteDecode where
  /-- An instruction, and the bytes after it. -/
  | instr (i : Instr) (rest : List Byte)
  /-- Rejected: a word that matches no row (R101), and the bytes after it. -/
  | unknown (w : Word) (rest : List Byte)
  /-- Rejected: fewer than the two bytes a word needs. -/
  | truncated
deriving DecidableEq, Repr

/-- The decoder on a byte sequence, total on any bytes. -/
def decodeBytes (cw : ClearWord) : List Byte → ByteDecode
  | hi :: lo :: rest =>
    match decode cw (wordOfBytes hi lo) with
    | .instr i => .instr i rest
    | .unknown w => .unknown w rest
  | [_] => .truncated
  | [] => .truncated

/-- The two bytes of a word as memory holds them, high byte first (R63). -/
def bytesOfWord (w : Word) : List Byte := [w.extractLsb' 8 8, w.extractLsb' 0 8]

/-- The host's numbering of an opcode-table row as a 16-bit word: the low `nbits` bits of `w`, the bits above them zero. -/
def tableWord (nbits w : Nat) : Word := BitVec.ofNat 16 (w % 2 ^ nbits)

/-- The instruction the decoder reads from an opcode-table word at the default `CLEAR_WORD`, the one the table shows;
`none` where it answers Unknown. -/
def decodeTableWord (nbits w : Nat) : Option Instr :=
  match decodeBytes Config.default.clearWord (bytesOfWord (tableWord nbits w)) with
  | .instr i _ => some i
  | .unknown _ _ => none
  | .truncated => none

/-! ### The encoder -/

/-- Format `NNN` (R92). -/
def formNNN (m : BitVec 4) (nnn : BitVec 12) : Word := m ++ nnn

/-- Formats `XKK` and `XFN` (R92): the low byte is kk, or the sub-opcode. -/
def formXKK (m : BitVec 4) (x : RegIdx) (kk : Byte) : Word := m ++ BitVec.ofFin (w := 4) x ++ kk

/-- Formats `XY0`, `XYZ` and `XYN` (R92): the low nibble is 0, the sub-case or the row count. -/
def formXYN (m : BitVec 4) (x y : RegIdx) (n : BitVec 4) : Word :=
  m ++ BitVec.ofFin (w := 4) x ++ BitVec.ofFin (w := 4) y ++ n

/-- The word of an instruction (R105), under a given `CLEAR_WORD`. -/
def encode (cw : ClearWord) : Instr → Word
  | .clear => cw.word
  | .ret => 0x00EE
  | .call nnn => formNNN 0x0 nnn
  | .jump nnn => formNNN 0x1 nnn
  | .callSub nnn => formNNN 0x2 nnn
  | .skipIfEq x kk => formXKK 0x3 x kk
  | .skipIfNeq x kk => formXKK 0x4 x kk
  | .skipIfRegEq x y => formXYN 0x5 x y 0x0
  | .setConst x kk => formXKK 0x6 x kk
  | .addConst x kk => formXKK 0x7 x kk
  | .copy x y => formXYN 0x8 x y 0x0
  | .or x y => formXYN 0x8 x y 0x1
  | .and x y => formXYN 0x8 x y 0x2
  | .xor x y => formXYN 0x8 x y 0x3
  | .addReg x y => formXYN 0x8 x y 0x4
  | .sub x y => formXYN 0x8 x y 0x5
  | .shr x y => formXYN 0x8 x y 0x6
  | .subN x y => formXYN 0x8 x y 0x7
  | .shl x y => formXYN 0x8 x y 0xE
  | .skipIfRegNeq x y => formXYN 0x9 x y 0x0
  | .setIndex nnn => formNNN 0xA nnn
  | .jumpPlusV0 nnn => formNNN 0xB nnn
  | .random x kk => formXKK 0xC x kk
  | .draw x y n => formXYN 0xD x y (BitVec.ofFin (w := 4) n)
  | .skipIfKey x => formXKK 0xE x 0x9E
  | .skipIfNotKey x => formXKK 0xE x 0xA1
  | .getDelay x => formXKK 0xF x 0x07
  | .waitKey x => formXKK 0xF x 0x0A
  | .setDelay x => formXKK 0xF x 0x15
  | .setSound x => formXKK 0xF x 0x18
  | .memAdd x => formXKK 0xF x 0x1E
  | .memFont x => formXKK 0xF x 0x29
  | .bcd x => formXKK 0xF x 0x33
  | .memStore x => formXKK 0xF x 0x55
  | .memLoad x => formXKK 0xF x 0x65

end Sys2Proof
end

