-- ==== Sys2Proof/Machine/State.lean ====
section
/-! DEFINITION. The state of the core and of its host command port, as plain data, and the state after reset.
`MachineState` is the record of rule R49, field by field; `State` adds what the port needs around it: the configuration (which no
command changes, R46), the host commands still to come (R17, R20), the byte STEP draws (R8) and the last response (R17, R201). -/

namespace Sys2Proof.Machine

/-- The address spaces an `AddressOutOfRange` error names (R201). -/
inductive AddressSpace where
  | memory
  | keypad
deriving DecidableEq, Repr

/-- The phase of a STEP an `AddressOutOfRange` error names (R201). -/
inductive Phase where
  | fetch
  | execute
deriving DecidableEq, Repr

/-- The step errors, codes 1 to 5 of R201, each with the information R201 records. They are responses to the host, not stops of
the machine: the state after one is given by R121 and R124, and the next STEP goes on from it (R126, R206). -/
inductive StepError where
  /-- Code 1: the word matches no row (R125). -/
  | unknownOpcode (word : Word)
  /-- Code 2: the deprecated machine-code call (R134). -/
  | deprecatedOpcode (word : Word) (nnn : BitVec 12)
  /-- Code 3: a push with SP >= 16 (R131). -/
  | stackOverflow (sp : Nat)
  /-- Code 4: a pop with SP = 0 (R132). -/
  | stackUnderflow (sp : Nat)
  /-- Code 5: the first address or key index that does not exist (R64, R121, R190). -/
  | addressOutOfRange (space : AddressSpace) (index : Nat) (phase : Phase)
deriving DecidableEq, Repr

/-- The errors of the other host commands, codes 16 to 18 of R201. -/
inductive CommandError where
  /-- Code 16: LOAD of no bytes (R245). -/
  | emptyRom
  /-- Code 17: LOAD of more bytes than fit above START_OFFSET (R245). -/
  | romTooLarge (len : Nat)
  /-- Code 18: KEY_DOWN or KEY_UP of a key that does not exist (R216). -/
  | keyIndexOutOfRange (index : Nat)
deriving DecidableEq, Repr

/-- The host commands, the whole input of the core (R17): no other transaction exists. -/
inductive Command where
  /-- `STEP` with its random byte `rnd`, which only Random reads (R120, R123). -/
  | step (rnd : Byte)
  /-- `TICK` (R211). -/
  | tick
  /-- `KEY_DOWN(k)` (R215). -/
  | keyDown (k : Nat)
  /-- `KEY_UP(k)` (R215). -/
  | keyUp (k : Nat)
  /-- `LOAD(rom)` (R244). -/
  | load (rom : List Byte)
  /-- `RESET` (R240). -/
  | reset
  /-- `READ_FB` (R217). -/
  | readFb
  /-- `READ_STATE` (R218). -/
  | readState
deriving DecidableEq, Repr

/-- The memory's contents as a sparse list, addresses rising, holding only the bytes that differ from the reset contents (the font,
and zero above it, R48): `Memory.wf` of Machine/Ops.lean says the form (DESIGN CHOICE, assumption log entry 5). -/
abbrev Memory := List Host.Cell

/-- The Machine State: the record of R49, whose fields are all the architectural state the core has (R40, R45). -/
structure MachineState where
  /-- M, 4096 bytes (R44, R60), as a `Memory` over the configuration's reset contents. -/
  mem : Memory
  /-- V0..VF (R30), VF the flag register (R31). -/
  v : Vector Byte 16
  /-- I, the address register (R33). -/
  i : Word
  /-- PC (R34). -/
  pc : Word
  /-- SP, the number of stack entries in use (R37). -/
  sp : Byte
  /-- The return stack, separate from memory (R41). -/
  stack : Vector Word stackDepth
  /-- DT, the delay timer (R38). -/
  dt : Byte
  /-- ST, the sound timer (R39). -/
  st : Byte
  /-- The keypad, true meaning pressed (R42). -/
  key : Vector Bool nKeys
  /-- The framebuffer, row-major, true meaning lit (R43; DESIGN CHOICE on its length, assumption log entry 9). -/
  fb : List Bool
deriving DecidableEq, Repr

/-- What the core answers to a host command (R17). -/
inductive Response where
  /-- `OK`. -/
  | ok
  /-- `ERR` of a STEP, with the address of the word it failed on (`pc_at_fetch`, R201). -/
  | stepError (e : StepError) (pcAtFetch : Word)
  /-- `ERR` of another command. -/
  | commandError (e : CommandError)
  /-- What READ_FB returns: the dimensions and the grid (R217). -/
  | framebuffer (w h : Nat) (fb : List Bool)
  /-- What READ_STATE returns: a copy of the whole Machine State (R218). -/
  | machineState (m : MachineState)
deriving DecidableEq, Repr

/-- The whole state one transition works on: the Machine State and, around it, the host command port. -/
structure State extends MachineState where
  /-- The configuration, fixed for the life of the machine (R7, R46; DESIGN CHOICE, assumption log entry 8). -/
  config : Config
  /-- The host commands still to come, first one next (R20); when none is listed the host issues STEP with a free random byte
  (DESIGN CHOICE, assumption log entry 2). -/
  pending : List Command
  /-- The byte supplied with the STEP in progress (R8, R120). -/
  rnd : Byte
  /-- MODEL'S OWN: how many free random bytes have been drawn (DESIGN CHOICE, assumption log entry 3). -/
  draws : Nat
  /-- The response to the latest command (R17); no transition reads it (R126; DESIGN CHOICE, assumption log entry 1). -/
  response : Response
deriving DecidableEq, Repr

/-- The faults: where the machine stops because the spec gives no next state. The step ERRORS of R201 are not faults, they are
responses after which the core goes on (R204, R206). -/
inductive Fault where
  /-- Raised by Return when SP is above 16, so that the entry it would pop, `Stack[SP - 1]`, does not exist: R132 gives no
  effect there and R37 says no run reaches it (DESIGN CHOICE, assumption log entry 6). Safe: the model stops where the spec says nothing. -/
  | stackEntryMissing (index : Nat)
deriving DecidableEq, Repr

/-- The refusals. -/
inductive Refusal where
  /-- Raised by `exec` for an instruction that has no meaning yet. Safe: the model stops. No arm answers it. -/
  | notModelled (mnemonic : String)
deriving DecidableEq, Repr

/-- The Machine State after reset and at power-on (R48, R240, R241): memory at its reset contents (nothing listed), PC at
START_OFFSET, everything else zero, up or unlit. -/
def MachineState.reset (c : Config) : MachineState where
  mem := []
  v := Vector.replicate 16 0
  i := 0
  pc := c.startOffset.word
  sp := 0
  stack := Vector.replicate stackDepth 0
  dt := 0
  st := 0
  key := Vector.replicate nKeys false
  fb := List.replicate (c.screenW * c.screenH) false

/-- The core right after reset in a given configuration: no command waiting and `OK`, RESET's own answer (R240), at the port
(DESIGN CHOICE, assumption log entry 7). -/
def State.resetWith (c : Config) : State where
  toMachineState := MachineState.reset c
  config := c
  pending := []
  rnd := 0
  draws := 0
  response := .ok

/-- The core right after reset in the default configuration (R7, R48). -/
def State.reset : State := State.resetWith Config.default

/-- `sound_active`, the core's one continuous output (R18, R213). -/
def State.soundActive (s : State) : Bool := s.st != 0

end Sys2Proof.Machine
end

