-- ==== Sys2Proof/Machine/Ops.lean ====
section
/-! DEFINITION. The operations the meanings share: memory (R60 to R70), the range check (R64), raising a step error (R13, R124,
R204), completing a step, PC transfers and skips (R130), and the return stack (R131, R132).

TAKING AN EXCEPTION on this hardware is `raise`: there is no vector, no saved register and no mode (R204, R205); the error goes to
the host as the STEP's response and the Machine State stays as the fetch's advance left it (R124). There is no return from it: the
host issues the next command (R206). -/

namespace Sys2Proof.Machine

/-- The answer of a transition. -/
abbrev Result := Host.Outcome State Fault Refusal

/-! ### Memory -/

/-- What an address that the list does not name reads as: the reset contents (R48), which are the font below 0x050 and zero above. -/
def unlistedByte (c : Config) (a : Nat) : Byte := c.font[a]?.getD 0

/-- One byte of memory, `M[a]` (R12, R60). -/
def Memory.read (c : Config) : Memory → Nat → Byte
  | [], a => unlistedByte c a
  | (k, b) :: rest, a => if k = a then b else Memory.read c rest a

/-- Write into the sparse list, keeping addresses rising and dropping an entry that equals the reset contents. -/
def Memory.insert (c : Config) : Memory → Nat → Byte → Memory
  | [], a, b => if b = unlistedByte c a then [] else [(a, b)]
  | (k, v) :: rest, a, b =>
    if a < k then (if b = unlistedByte c a then (k, v) :: rest else (a, b) :: (k, v) :: rest)
    else if a = k then (if b = unlistedByte c a then rest else (a, b) :: rest)
    else (k, v) :: Memory.insert c rest a b

/-- Write one byte, `M[a] <- b` (R12, R60). An address that does not exist holds nothing: the callers check the range first (R64). -/
def Memory.write (c : Config) (m : Memory) (a : Nat) (b : Byte) : Memory :=
  if a < ramSize then Memory.insert c m a b else m

/-- `MemWrite(a, n, bytes)` of R12: bytes to `a, a+1, ...` in ascending address order. -/
def Memory.writeBytes (c : Config) (m : Memory) (a : Nat) : List Byte → Memory
  | [] => m
  | b :: rest => Memory.writeBytes c (Memory.write c m a b) (a + 1) rest

/-- `MemRead(a, n)` of R12: the n bytes at `a, a+1, ...`. -/
def Memory.readBytes (c : Config) (m : Memory) (a : Nat) : Nat → List Byte
  | 0 => []
  | n + 1 => Memory.read c m a :: Memory.readBytes c m (a + 1) n

/-- The canonical form from address `lo` on. -/
def Memory.wfFrom (c : Config) : Nat → Memory → Bool
  | _, [] => true
  | lo, (k, b) :: rest =>
    decide (lo ≤ k) && decide (k < ramSize) && b != unlistedByte c k && Memory.wfFrom c (k + 1) rest

/-- The canonical form of a memory: addresses strictly rising, every one below RAM_SIZE, and no entry equal to what its address
reads as unlisted. Equal memories are then equal lists. -/
def Memory.wf (c : Config) (m : Memory) : Bool := Memory.wfFrom c 0 m

/-- One byte of a state's memory. -/
def State.byteAt (s : State) (a : Nat) : Byte := Memory.read s.config s.mem a

/-- Write bytes into a state's memory. -/
def State.storeBytes (s : State) (a : Nat) (bs : List Byte) : State :=
  { s with mem := Memory.writeBytes s.config s.mem a bs }

/-! ### Completing a step and raising an error -/

/-- The step returns OK (R120). -/
def complete (s : State) : Result := .next { s with response := .ok }

/-- `raise E(info)` in a handler (R13, R124, R204): nothing of the Machine State is written, and the response carries the error and
the address the failing word was fetched from, PC being already 2 past it (R35, R201; DEDUCED,
assumption log entry 11). -/
def raise (e : StepError) (s : State) : Result :=
  .next { s with response := .stepError e (s.pc - 2) }

/-- `CheckRange(a, n)` of R64: the lowest of the addresses `a .. a+n-1` that does not exist, computed as naturals. -/
def checkRange (phase : Phase) (a : Nat) : Nat → Option StepError
  | 0 => none
  | n + 1 => if ramSize ≤ a then some (.addressOutOfRange .memory a phase) else checkRange phase (a + 1) n

/-- Run a handler's body after its range check over `n` bytes at I (R64): the check comes before any access, and on failure the
instruction writes nothing. -/
def withinRange (n : Nat) (s : State) (body : Result) : Result :=
  match checkRange .execute s.i.toNat n with
  | some e => raise e s
  | none => body

/-! ### PC -/

/-- Advance PC past the fetched word (R122). -/
def advance (s : State) : State := { s with pc := s.pc + 2 }

/-- A transfer to an absolute 16-bit target (R142). -/
def jumpTo (target : Word) (s : State) : State := { s with pc := target }

/-- A conditional skip over one word (R130): PC was already advanced by the fetch. -/
def skipIf (cond : Bool) (s : State) : State := if cond then { s with pc := s.pc + 2 } else s

/-- PC moved back over the fetched word, so that the same word is fetched again (R128, R194). -/
def rewind (s : State) : State := { s with pc := s.pc - 2 }

/-! ### The return stack -/

/-- `Push(v)` of R131 and then the rest of the instruction: the entry at SP is written, then SP is incremented; with SP >= 16 the
push raises and writes nothing. -/
def push (v : Word) (s : State) (body : State → Result) : Result :=
  if h : s.sp.toNat < stackDepth then
    body { s with stack := s.stack.set s.sp.toNat v h, sp := s.sp + 1 }
  else raise (.stackOverflow s.sp.toNat) s

/-- `Pop()` of R132 and then the rest of the instruction: SP is decremented, then the entry is read and keeps its value (R41); with
SP = 0 the pop raises and writes nothing. An SP above 16, which no run reaches (R37), names an entry that does not exist
(DESIGN CHOICE, assumption log entry 6). -/
def pop (s : State) (body : Word → State → Result) : Result :=
  if s.sp = 0 then raise (.stackUnderflow 0) s
  else if h : s.sp.toNat - 1 < stackDepth then
    body s.stack[s.sp.toNat - 1] { s with sp := s.sp - 1 }
  else .fault (.stackEntryMissing (s.sp.toNat - 1))

/-! ### The framebuffer -/

/-- `FB(x, y)`: the linear index of the row-major grid is `y * SCREEN_W + x` (R43). -/
def fbGet (width : Nat) (fb : List Bool) (x y : Nat) : Bool := fb.getD (y * width + x) false

/-- `FB(x, y) <- lit`. -/
def fbSet (width : Nat) (fb : List Bool) (x y : Nat) (lit : Bool) : List Bool := fb.set (y * width + x) lit

/-- A grid with every pixel unlit (R48, R180). -/
def fbBlank (c : Config) : List Bool := List.replicate (c.screenW * c.screenH) false

end Sys2Proof.Machine
end

