-- ==== Sys2Proof/Machine/Operands.lean ====
section
/-! DEFINITION. Operands: the general registers (R30, R32), 16-bit addresses from `nnn` (R93), the keypad (R190, R193), and the bytes
an instruction moves to or from memory through I (R173 to R175). -/

namespace Sys2Proof.Machine

/-- `V[x]` (R11). No register is hard-wired (R30). -/
def getV (s : State) (x : RegIdx) : Byte := s.v[x]

/-- `V[x] <- b` (R11). -/
def setV (x : RegIdx) (b : Byte) (s : State) : State := { s with v := s.v.set x b }

/-- `zext_16(nnn)` (R93). -/
def addressOf (nnn : BitVec 12) : Word := nnn.setWidth 16

/-- `zext_16(V[x])` (R10, R141, R171, R172). -/
def wordV (s : State) (x : RegIdx) : Word := (getV s x).setWidth 16

/-- `I <- w` (R33). -/
def setI (w : Word) (s : State) : State := { s with i := w }

/-- `UpdateI(x)` of R176, by LS_I_MODE. -/
def updateI (x : RegIdx) (s : State) : State :=
  match s.config.lsIMode with
  | .keep => s
  | .plusXPlus1 => { s with i := s.i + BitVec.ofNat 16 (x.val + 1) }
  | .plusX => { s with i := s.i + BitVec.ofNat 16 x.val }

/-- `KeyAt(k)` of R190 and then the rest of the instruction: a value of 16 or more names no key and raises. -/
def keyAt (k : Byte) (s : State) (body : Bool → Result) : Result :=
  if h : k.toNat < nKeys then body s.key[k.toNat]
  else raise (.addressOutOfRange .keypad k.toNat .execute) s

/-- `LowestPressed()` of R193: the smallest index of a pressed key. -/
def lowestPressed (s : State) : Option Nat := s.key.toList.findIdx? id

/-- The three decimal digits Bcd stores, hundreds first (R173). -/
def bcdDigits (v : Byte) : List Byte :=
  [BitVec.ofNat 8 (v.toNat / 100), BitVec.ofNat 8 (v.toNat / 10 % 10), BitVec.ofNat 8 (v.toNat % 10)]

/-- The bytes MemStore stores: V0..Vx in ascending register order (R174). -/
def storedRegs (s : State) (x : RegIdx) : List Byte := s.v.toList.take (x.val + 1)

/-- V0..V(n-1) loaded from the bytes at `a` on, in ascending register order (R175). -/
def loadRegs (c : Config) (m : Memory) (a : Nat) (v : Vector Byte 16) : Nat → Vector Byte 16
  | 0 => v
  | n + 1 => (loadRegs c m a v n).setIfInBounds n (Memory.read c m (a + n))

end Sys2Proof.Machine
end

