-- ==== Sys2Proof/Machine/Flags.lean ====
section
/-! DEFINITION. Every flag computation of the spec (R151, R181), and the one order in which a result and its flag are written (R152).
The flag is VF and is always 0 or 1. -/

namespace Sys2Proof.Machine

/-- `bool(c)` of R14 as a byte. -/
def flagByte (c : Bool) : Byte := if c then 1 else 0

/-- The carry of 8xy4: `a + b > 0xFF` over naturals (R151, R159). -/
def carry (a b : Byte) : Bool := decide (a.toNat + b.toNat > 0xFF)

/-- NOT-borrow of `a - b`: `a >= b`, so equal operands give 1 (R151, R160, R162). -/
def notBorrow (a b : Byte) : Bool := decide (a.toNat ≥ b.toNat)

/-- The pre-shift least significant bit (R151, R161). -/
def lsb (a : Byte) : Bool := a.getLsbD 0

/-- The pre-shift most significant bit (R151, R163). -/
def msb (a : Byte) : Bool := a.getLsbD 7

/-- `VF <- bool(c)`. -/
def setFlag (c : Bool) (s : State) : State := setV vF (flagByte c) s

/-- The write order of R152: `V[x] <- result` and then `VF <- flag`, so with x = 0xF VF holds the flag. -/
def setResultThenFlag (x : RegIdx) (result : Byte) (flag : Bool) (s : State) : State :=
  setFlag flag (setV x result s)

end Sys2Proof.Machine
end

