-- ==== Sys2Proof/Machine/Alu.lean ====
section
/-! DEFINITION. Constants, register arithmetic, logic, shifts and Random, spec/42_alu.md. None of them raises. Operands are read
before any write (R152). -/

namespace Sys2Proof.Machine

/-- SetConst, R153. -/
def execSetConst (x : RegIdx) (kk : Byte) (s : State) : Result := complete (setV x kk s)

/-- AddConst, R154: wraps, and VF is not written by a carry. -/
def execAddConst (x : RegIdx) (kk : Byte) (s : State) : Result := complete (setV x (getV s x + kk) s)

/-- Copy, R155. -/
def execCopy (x y : RegIdx) (s : State) : Result := complete (setV x (getV s y) s)

/-- Or, R156: VF is not written. -/
def execOr (x y : RegIdx) (s : State) : Result := complete (setV x (getV s x ||| getV s y) s)

/-- And, R157: VF is not written. -/
def execAnd (x y : RegIdx) (s : State) : Result := complete (setV x (getV s x &&& getV s y) s)

/-- Xor, R158: VF is not written. -/
def execXor (x y : RegIdx) (s : State) : Result := complete (setV x (getV s x ^^^ getV s y) s)

/-- AddReg, R159: VF is the carry. -/
def execAddReg (x y : RegIdx) (s : State) : Result :=
  complete (setResultThenFlag x (getV s x + getV s y) (carry (getV s x) (getV s y)) s)

/-- Sub, R160: Vx - Vy, VF is NOT-borrow. -/
def execSub (x y : RegIdx) (s : State) : Result :=
  complete (setResultThenFlag x (getV s x - getV s y) (notBorrow (getV s x) (getV s y)) s)

/-- Shr, R161: the operand is Vx; the y field is not read. -/
def execShr (x _y : RegIdx) (s : State) : Result :=
  complete (setResultThenFlag x (getV s x >>> 1) (lsb (getV s x)) s)

/-- SubN, R162: Vy - Vx, VF is NOT-borrow. -/
def execSubN (x y : RegIdx) (s : State) : Result :=
  complete (setResultThenFlag x (getV s y - getV s x) (notBorrow (getV s y) (getV s x)) s)

/-- Shl, R163: the operand is Vx; the y field is not read. -/
def execShl (x _y : RegIdx) (s : State) : Result :=
  complete (setResultThenFlag x (getV s x <<< 1) (msb (getV s x)) s)

/-- Random, R165: the byte supplied with the STEP, masked by kk. -/
def execRandom (x : RegIdx) (kk : Byte) (s : State) : Result := complete (setV x (s.rnd &&& kk) s)

end Sys2Proof.Machine
end

