-- ==== Sys2Proof/Machine/ControlFlow.lean ====
section
/-! DEFINITION. Control flow, spec/41_control_flow.md. PC is the advanced value in every meaning (R35). -/

namespace Sys2Proof.Machine

/-- Return, R133: `PC <- Pop()`. -/
def execRet (s : State) : Result := pop s fun target t => complete (jumpTo target t)

/-- The deprecated Call, R134: its whole effect is to raise `DeprecatedOpcode(word, nnn)`; the word is 0x0nnn. -/
def execCall (nnn : BitVec 12) (s : State) : Result := raise (.deprecatedOpcode (addressOf nnn) nnn) s

/-- Jump, R135. -/
def execJump (nnn : BitVec 12) (s : State) : Result := complete (jumpTo (addressOf nnn) s)

/-- CallSub, R136: the advanced PC is pushed. -/
def execCallSub (nnn : BitVec 12) (s : State) : Result :=
  push s.pc s fun t => complete (jumpTo (addressOf nnn) t)

/-- SkipIfEq, R137. -/
def execSkipIfEq (x : RegIdx) (kk : Byte) (s : State) : Result := complete (skipIf (getV s x == kk) s)

/-- SkipIfNeq, R138. -/
def execSkipIfNeq (x : RegIdx) (kk : Byte) (s : State) : Result := complete (skipIf (getV s x != kk) s)

/-- SkipIfRegEq, R139. -/
def execSkipIfRegEq (x y : RegIdx) (s : State) : Result := complete (skipIf (getV s x == getV s y) s)

/-- SkipIfRegNeq, R140. -/
def execSkipIfRegNeq (x y : RegIdx) (s : State) : Result := complete (skipIf (getV s x != getV s y) s)

/-- JumpPlusV0, R141: `nnn + V0` modulo 2^16, always V0. -/
def execJumpPlusV0 (nnn : BitVec 12) (s : State) : Result :=
  complete (jumpTo (addressOf nnn + wordV s 0) s)

end Sys2Proof.Machine
end

