-- ==== Sys2Proof/Machine/Display.lean ====
section
/-! DEFINITION. Clear and Draw, spec/44_display.md. -/

namespace Sys2Proof.Machine

/-- The pixels the set bits of one sprite row land on, bit 7 first (R181): `((x0 + col) mod W, (y0 + row) mod H)`, the sums natural
numbers (R182). -/
def rowPixels (width height x0 y0 row : Nat) (b : Byte) : List (Nat × Nat) :=
  ((List.range 8).filter fun col => b.getLsbD (7 - col)).map
    fun col => ((x0 + col) % width, (y0 + row) % height)

/-- The pixels of a whole sprite in R181's order: row 0 first, column 0 to 7 within a row. -/
def spritePixels (width height x0 y0 : Nat) : Nat → List Byte → List (Nat × Nat)
  | _, [] => []
  | row, b :: rest => rowPixels width height x0 y0 row b ++ spritePixels width height x0 y0 (row + 1) rest

/-- The loop body of R181 on one pixel: a lit pixel sets the collision accumulator, and the pixel is inverted. -/
def togglePixel (width : Nat) (acc : List Bool × Bool) (p : Nat × Nat) : List Bool × Bool :=
  let lit := fbGet width acc.1 p.1 p.2
  (fbSet width acc.1 p.1 p.2 (!lit), acc.2 || lit)

/-- The loop of R181 over the sprite's pixels: the framebuffer after it, and whether some pixel was erased. -/
def drawPixels (width : Nat) (fb : List Bool) (ps : List (Nat × Nat)) : List Bool × Bool :=
  ps.foldl (togglePixel width) (fb, false)

/-- The pixels Draw inverts in a state: `V[x]` and `V[y]` are read once, before any write, and the rows are the n bytes at I. -/
def drawnPixels (x y : RegIdx) (n : Fin 16) (s : State) : List (Nat × Nat) :=
  spritePixels s.config.screenW s.config.screenH (getV s x).toNat (getV s y).toNat 0
    (Memory.readBytes s.config s.mem s.i.toNat n.val)

/-- Clear, R180: every pixel unlit, VF not written. -/
def execClear (s : State) : Result := complete { s with fb := fbBlank s.config }

/-- Draw, R181: VF is written after the loop, also when n = 0 (R182). -/
def execDraw (x y : RegIdx) (n : Fin 16) (s : State) : Result :=
  withinRange n.val s
    (let drawn := drawPixels s.config.screenW s.fb (drawnPixels x y n s)
     complete (setFlag drawn.2 { s with fb := drawn.1 }))

end Sys2Proof.Machine
end

