-- ==== Sys2Proof/Machine/IndexMemory.lean ====
section
/-! DEFINITION. The address register and the memory instructions, spec/43_index_memory.md. -/

namespace Sys2Proof.Machine

/-- SetIndex, R170. -/
def execSetIndex (nnn : BitVec 12) (s : State) : Result := complete (setI (addressOf nnn) s)

/-- MemAdd, R171: wraps at 16 bits, VF is not written. -/
def execMemAdd (x : RegIdx) (s : State) : Result := complete (setI (s.i + wordV s x) s)

/-- MemFont, R172: the full byte times 5, no mask. -/
def execMemFont (x : RegIdx) (s : State) : Result := complete (setI (wordV s x * 5) s)

/-- Bcd, R173: the three digits at I, I+1, I+2; I is not changed. -/
def execBcd (x : RegIdx) (s : State) : Result :=
  withinRange 3 s (complete (s.storeBytes s.i.toNat (bcdDigits (getV s x))))

/-- MemStore, R174: V0..Vx at I on, then the optional update of I (R176). -/
def execMemStore (x : RegIdx) (s : State) : Result :=
  withinRange (x.val + 1) s (complete (updateI x (s.storeBytes s.i.toNat (storedRegs s x))))

/-- MemLoad, R175: V0..Vx from I on, then the optional update of I (R176). -/
def execMemLoad (x : RegIdx) (s : State) : Result :=
  withinRange (x.val + 1) s
    (complete (updateI x { s with v := loadRegs s.config s.mem s.i.toNat s.v (x.val + 1) }))

end Sys2Proof.Machine
end

