-- ==== Sys2Proof/Machine/KeysTimers.lean ====
section
/-! DEFINITION. The keypad and timer instructions, spec/45_keys_timers.md. -/

namespace Sys2Proof.Machine

/-- SkipIfKey, R191. -/
def execSkipIfKey (x : RegIdx) (s : State) : Result :=
  keyAt (getV s x) s fun down => complete (skipIf down s)

/-- SkipIfNotKey, R192. -/
def execSkipIfNotKey (x : RegIdx) (s : State) : Result :=
  keyAt (getV s x) s fun down => complete (skipIf (!down) s)

/-- WaitKey, R194: the lowest pressed key into Vx, or PC moved back so that the same word is fetched next. -/
def execWaitKey (x : RegIdx) (s : State) : Result :=
  match lowestPressed s with
  | some k => complete (setV x (BitVec.ofNat 8 k) s)
  | none => complete (rewind s)

/-- GetDelay, R195. -/
def execGetDelay (x : RegIdx) (s : State) : Result := complete (setV x s.dt s)

/-- SetDelay, R196. -/
def execSetDelay (x : RegIdx) (s : State) : Result := complete { s with dt := getV s x }

/-- SetSound, R197. -/
def execSetSound (x : RegIdx) (s : State) : Result := complete { s with st := getV s x }

end Sys2Proof.Machine
end

