-- ==== Sys2Proof/Machine/Dispatch.lean ====
section
/-! DEFINITION. `execute(ins, rnd)` of rule R123: one arm per instruction, in the opcode table's order. The state an arm gets is the
one after the fetch's advance of PC (R122, R35). -/

namespace Sys2Proof.Machine

def exec (i : Instr) (s : State) : Host.Outcome State Fault Refusal :=
  match i with
  | .clear => Sys2Proof.Machine.execClear s
  | .ret => Sys2Proof.Machine.execRet s
  | .call nnn => Sys2Proof.Machine.execCall nnn s
  | .jump nnn => Sys2Proof.Machine.execJump nnn s
  | .callSub nnn => Sys2Proof.Machine.execCallSub nnn s
  | .skipIfEq x kk => Sys2Proof.Machine.execSkipIfEq x kk s
  | .skipIfNeq x kk => Sys2Proof.Machine.execSkipIfNeq x kk s
  | .skipIfRegEq x y => Sys2Proof.Machine.execSkipIfRegEq x y s
  | .setConst x kk => Sys2Proof.Machine.execSetConst x kk s
  | .addConst x kk => Sys2Proof.Machine.execAddConst x kk s
  | .copy x y => Sys2Proof.Machine.execCopy x y s
  | .or x y => Sys2Proof.Machine.execOr x y s
  | .and x y => Sys2Proof.Machine.execAnd x y s
  | .xor x y => Sys2Proof.Machine.execXor x y s
  | .addReg x y => Sys2Proof.Machine.execAddReg x y s
  | .sub x y => Sys2Proof.Machine.execSub x y s
  | .shr x y => Sys2Proof.Machine.execShr x y s
  | .subN x y => Sys2Proof.Machine.execSubN x y s
  | .shl x y => Sys2Proof.Machine.execShl x y s
  | .skipIfRegNeq x y => Sys2Proof.Machine.execSkipIfRegNeq x y s
  | .setIndex nnn => Sys2Proof.Machine.execSetIndex nnn s
  | .jumpPlusV0 nnn => Sys2Proof.Machine.execJumpPlusV0 nnn s
  | .random x kk => Sys2Proof.Machine.execRandom x kk s
  | .draw x y n => Sys2Proof.Machine.execDraw x y n s
  | .skipIfKey x => Sys2Proof.Machine.execSkipIfKey x s
  | .skipIfNotKey x => Sys2Proof.Machine.execSkipIfNotKey x s
  | .getDelay x => Sys2Proof.Machine.execGetDelay x s
  | .waitKey x => Sys2Proof.Machine.execWaitKey x s
  | .setDelay x => Sys2Proof.Machine.execSetDelay x s
  | .setSound x => Sys2Proof.Machine.execSetSound x s
  | .memAdd x => Sys2Proof.Machine.execMemAdd x s
  | .memFont x => Sys2Proof.Machine.execMemFont x s
  | .bcd x => Sys2Proof.Machine.execBcd x s
  | .memStore x => Sys2Proof.Machine.execMemStore x s
  | .memLoad x => Sys2Proof.Machine.execMemLoad x s

end Sys2Proof.Machine
end

