-- ==== Sys2Proof/Machine/HostPort.lean ====
section
/-! DEFINITION. The host commands other than STEP: TICK (R211), KEY_DOWN and KEY_UP (R215, R216), LOAD (R244 to R246), RESET (R240),
READ_FB (R217) and READ_STATE (R218), and the error codes of R201. Each is one indivisible transaction (R20). -/

namespace Sys2Proof.Machine

/-- The code of a step error (R201). -/
def StepError.code : StepError → Nat
  | .unknownOpcode _ => 1
  | .deprecatedOpcode _ _ => 2
  | .stackOverflow _ => 3
  | .stackUnderflow _ => 4
  | .addressOutOfRange _ _ _ => 5

/-- The code of another command's error (R201). -/
def CommandError.code : CommandError → Nat
  | .emptyRom => 16
  | .romTooLarge _ => 17
  | .keyIndexOutOfRange _ => 18

/-- A command refused with no change of the Machine State (R216, R245). -/
def refuseCommand (e : CommandError) (s : State) : Result := .next { s with response := .commandError e }

/-- One timer's tick: one less, never below 0 (R211, R212). -/
def countDown (t : Byte) : Byte := if t = 0 then 0 else t - 1

/-- `TICK` (R211). -/
def cmdTick (s : State) : Result := complete { s with dt := countDown s.dt, st := countDown s.st }

/-- `KEY_DOWN(k)` with `down = true` and `KEY_UP(k)` with `down = false` (R215); an index of 16 or more is refused (R216). -/
def cmdKey (down : Bool) (k : Nat) (s : State) : Result :=
  if h : k < nKeys then complete { s with key := s.key.set k down h }
  else refuseCommand (.keyIndexOutOfRange k) s

/-- `LOAD(rom)` (R244 to R246): the bytes are copied to START_OFFSET on, and nothing else changes. -/
def cmdLoad (rom : List Byte) (s : State) : Result :=
  if rom.length = 0 then refuseCommand .emptyRom s
  else if rom.length > ramSize - s.config.startOffset.word.toNat then
    refuseCommand (.romTooLarge rom.length) s
  else complete (s.storeBytes s.config.startOffset.word.toNat rom)

/-- `RESET` (R240): the Machine State takes its reset values; the configuration is unchanged (R46), and so are the commands the host
has still to issue (DESIGN CHOICE, assumption log entry 13). -/
def cmdReset (s : State) : Result := complete { s with toMachineState := MachineState.reset s.config }

/-- `READ_FB` (R217). -/
def cmdReadFb (s : State) : Result :=
  .next { s with response := .framebuffer s.config.screenW s.config.screenH s.fb }

/-- `READ_STATE` (R218). -/
def cmdReadState (s : State) : Result := .next { s with response := .machineState s.toMachineState }

end Sys2Proof.Machine
end

