-- ==== Sys2Proof/Machine/Cycle.lean ====
section
/-! DEFINITION. The step transaction, spec/40_cycle.md: fetch, advance, decode, execute. And the host command port that runs one
command after another (R17, R20). -/

namespace Sys2Proof.Machine

/-- `Fetch16(a)`: the byte at `a` is bits 15..8 of the word, the byte at `a + 1` bits 7..0 (R12, R63). -/
def fetchWord (s : State) : Word := wordOfBytes (s.byteAt s.pc.toNat) (s.byteAt (s.pc.toNat + 1))

/-- Unknown, R125: its whole effect is to raise `UnknownOpcode(w)`. -/
def execUnknown (w : Word) (s : State) : Result := raise (.unknownOpcode w) s

/-- Decode and execute (R120, R123), on the state after the advance. -/
def decodeAndExecute (w : Word) (s : State) : Result :=
  match decode s.config.clearWord w with
  | .instr i => exec i s
  | .unknown w' => execUnknown w' s

/-- `STEP(rnd)` (R120), the byte already in `rnd`. A failing fetch changes nothing, PC included, and reports PC itself as the
address it could not fetch (R121, R201); otherwise PC is advanced before the instruction runs (R122). -/
def cmdStep (s : State) : Result :=
  match checkRange .fetch s.pc.toNat 2 with
  | some e => .next { s with response := .stepError e s.pc }
  | none => decodeAndExecute (fetchWord s) (advance s)

/-- One host command (R17). -/
def runCommand (c : Command) (s : State) : Result :=
  match c with
  | .step rnd => cmdStep { s with rnd := rnd }
  | .tick => cmdTick s
  | .keyDown k => cmdKey true k s
  | .keyUp k => cmdKey false k s
  | .load rom => cmdLoad rom s
  | .reset => cmdReset s
  | .readFb => cmdReadFb s
  | .readState => cmdReadState s

/-- The next transaction (R20): the first command of the host's script; with an empty script, STEP with a free random byte
(R8, assumption log entries 2 and 3). -/
def nextTransaction (s : State) : Result :=
  match s.pending with
  | c :: rest => runCommand c { s with pending := rest }
  | [] => cmdStep { s with rnd := Config.randomByte s.draws, draws := s.draws + 1 }

/-- Two bytes of an instruction word placed where the next STEP fetches, and no other command before that STEP. -/
def placeWord (w : Word) (s : State) : State :=
  { s.storeBytes s.pc.toNat (bytesOfWord w) with pending := [] }

end Sys2Proof.Machine
end

