-- ==== Sys2Proof/Machine/Step.lean ====
section
/-! DEFINITION. One transition of the machine, and the host's way to place one instruction word at the next fetch. -/

namespace Sys2Proof.Machine

/-- One transition: one host command run to completion (R20). -/
def step (s : State) : Host.Outcome State Fault Refusal := nextTransaction s

/-- `s` with an opcode-table word stored where the next `step` fetches, so that it runs exactly that instruction. Assumption log
entry 4 says how a program comes to run from reset. -/
def State.withFetchWord (s : State) (nbits w : Nat) : State := placeWord (tableWord nbits w) s

end Sys2Proof.Machine
end

