-- ==== Sys2Proof/Safety.lean ====
section
/-! DEFINITION. The terms the statements use: the invariant of the core, frames, the power-on state, and two common shapes of an
instruction's effect. -/

namespace Sys2Proof.Machine

/-! ### The invariant -/

/-- What holds of the core in every state the spec gives it: R7's domains, the memory's canonical form over addresses below
RAM_SIZE (R60), a framebuffer of SCREEN_W * SCREEN_H pixels (R43), and SP from 0 to 16 (R37). -/
def State.Inv (s : State) : Prop :=
  s.config.wf = true ∧ Memory.wf s.config s.mem = true ∧
    s.fb.length = s.config.screenW * s.config.screenH ∧ s.sp.toNat ≤ stackDepth

/-- A transition that does not stop the machine: R127 says that no STEP stops it. -/
def GoesOn (r : Result) : Prop := ∃ t, r = .next t

/-! ### Frames -/

/-- The parts of the Machine State (R49). -/
inductive Part where
  | mem | v | i | pc | sp | stack | dt | st | key | fb
deriving DecidableEq, Repr

/-- From `s` to `t` nothing changes but the listed parts and the response: memory is compared byte by byte. -/
def KeepsExcept (parts : List Part) (s t : State) : Prop :=
  (.mem ∈ parts ∨ ∀ a, t.byteAt a = s.byteAt a) ∧
  (.v ∈ parts ∨ ∀ r, getV t r = getV s r) ∧
  (.i ∈ parts ∨ t.i = s.i) ∧
  (.pc ∈ parts ∨ t.pc = s.pc) ∧
  (.sp ∈ parts ∨ t.sp = s.sp) ∧
  (.stack ∈ parts ∨ t.stack = s.stack) ∧
  (.dt ∈ parts ∨ t.dt = s.dt) ∧
  (.st ∈ parts ∨ t.st = s.st) ∧
  (.key ∈ parts ∨ t.key = s.key) ∧
  (.fb ∈ parts ∨ t.fb = s.fb) ∧
  t.config = s.config ∧ t.pending = s.pending ∧ t.rnd = s.rnd ∧ t.draws = s.draws

/-- Memory after a store of `n` bytes at `a`: every address outside `a .. a+n-1` reads as before. -/
def KeepsMemoryOutside (a n : Nat) (s t : State) : Prop :=
  ∀ b, b < a ∨ a + n ≤ b → t.byteAt b = s.byteAt b

/-- The registers an instruction writes, R32's column "writes". -/
def writtenRegs : Instr → List RegIdx
  | .setConst x _ => [x]
  | .addConst x _ => [x]
  | .copy x _ => [x]
  | .or x _ => [x]
  | .and x _ => [x]
  | .xor x _ => [x]
  | .addReg x _ => [x, vF]
  | .sub x _ => [x, vF]
  | .shr x _ => [x, vF]
  | .subN x _ => [x, vF]
  | .shl x _ => [x, vF]
  | .random x _ => [x]
  | .draw _ _ _ => [vF]
  | .getDelay x => [x]
  | .waitKey x => [x]
  | .memLoad x => (List.finRange 16).filter fun r => decide (r.val ≤ x.val)
  | .clear => []
  | .ret => []
  | .call _ => []
  | .jump _ => []
  | .callSub _ => []
  | .skipIfEq _ _ => []
  | .skipIfNeq _ _ => []
  | .skipIfRegEq _ _ => []
  | .skipIfRegNeq _ _ => []
  | .setIndex _ => []
  | .jumpPlusV0 _ => []
  | .skipIfKey _ => []
  | .skipIfNotKey _ => []
  | .setDelay _ => []
  | .setSound _ => []
  | .memAdd _ => []
  | .memFont _ => []
  | .bcd _ => []
  | .memStore _ => []

/-! ### Shapes of an effect -/

/-- Every CLEAR_WORD gives this word this instruction (R95). -/
def Encodes (w : Word) (i : Instr) : Prop := ∀ cw, decode cw w = .instr i

/-- In every state the instruction completes with OK, writes `value` to V[x] and changes nothing else. -/
def WritesRegister (i : Instr) (x : RegIdx) (value : State → Byte) : Prop :=
  ∀ s, ∃ t, exec i s = .next t ∧ t.response = .ok ∧ getV t x = value s ∧
    (∀ r, r ≠ x → getV t r = getV s r) ∧ KeepsExcept [.v] s t

/-- In every state the instruction completes with OK, writes `value` to V[x] and then 1 or 0 to VF, so that with x = 0xF VF holds the
flag (R152), and changes nothing else. -/
def WritesResultThenFlag (i : Instr) (x : RegIdx) (value : State → Nat) (flag : State → Prop) : Prop :=
  ∀ s, ∃ t, exec i s = .next t ∧ t.response = .ok ∧
    (x ≠ vF → (getV t x).toNat = value s) ∧
    (flag s → getV t vF = 1) ∧ (¬ flag s → getV t vF = 0) ∧
    (∀ r, r ≠ x → r ≠ vF → getV t r = getV s r) ∧ KeepsExcept [.v] s t

/-- In every state the instruction completes with OK, sets PC to `target` and changes nothing else. -/
def TransfersTo (i : Instr) (target : State → Word) : Prop :=
  ∀ s, ∃ t, exec i s = .next t ∧ t.response = .ok ∧ t.pc = target s ∧ KeepsExcept [.pc] s t

/-- In every state the instruction completes with OK, sets I to `value` and changes nothing else. -/
def WritesIndex (i : Instr) (value : State → Nat) : Prop :=
  ∀ s, ∃ t, exec i s = .next t ∧ t.response = .ok ∧ t.i.toNat = value s ∧ KeepsExcept [.i] s t

/-- The instruction raises: the step error is the response, with the address of the word it was fetched from, and nothing else
changes (R124). -/
def Raises (i : Instr) (s : State) (e : StepError) : Prop :=
  ∃ t, exec i s = .next t ∧ t.response = .stepError e (s.pc - 2) ∧ t.toMachineState = s.toMachineState ∧
    KeepsExcept [] s t

/-- The power-on state of R48, in a configuration. -/
def PowerOn (c : Config) (s : State) : Prop :=
  (∀ a (h : a < fontBytes), s.byteAt a = c.font[a]) ∧ (∀ a, fontBytes ≤ a → a < ramSize → s.byteAt a = 0) ∧
  (∀ r, getV s r = 0) ∧ s.i = 0 ∧ s.pc = c.startOffset.word ∧ s.sp = 0 ∧
  (∀ j (h : j < stackDepth), s.stack[j] = 0) ∧ s.dt = 0 ∧ s.st = 0 ∧
  (∀ k (h : k < nKeys), s.key[k] = false) ∧
  s.fb.length = c.screenW * c.screenH ∧ (∀ p ∈ s.fb, p = false) ∧ s.config = c

/-- How often R181's loop inverts pixel (px, py): once for each set bit of the n rows at I whose target it is, `rows[row][7 - col]`
landing on `((x0 + col) mod SCREEN_W, (y0 + row) mod SCREEN_H)`. -/
def spriteHits (s : State) (x0 y0 n px py : Nat) : Nat :=
  ((List.range n).map fun row =>
    (List.range 8).countP fun col =>
      (s.byteAt (s.i.toNat + row)).getLsbD (7 - col) &&
        (x0 + col) % s.config.screenW == px && (y0 + row) % s.config.screenH == py).sum

/-- `FB(px, py)` of a state (R43). -/
def pixel (s : State) (px py : Nat) : Bool := fbGet s.config.screenW s.fb px py

end Sys2Proof.Machine
end

