-- ==== Sys2Proof/Certificates/Slice0/Obligations.lean ====
section
/-! DEFINITION. The statements for the provers: each formalises rules R<n> of spec/, named in its docstring. A meaning runs on the
state after the fetch's advance of PC (R35), so `s.pc` in a statement about `exec` is the address of the word plus 2. -/

open Sys2Proof Sys2Proof.Machine

/-! ### Decoding -/

/-- Derived from R95, R97 and R105: no bit of an encoding is dropped. -/
def Obligations.DecodeOfEncodeIsTheInstruction : Prop :=
  ∀ cw i, i.WellFormed cw = true → decode cw (encode cw i) = .instr i

/-- Derived from R94, R95, R97 and R107: a word that decodes to an instruction is that instruction's one word. -/
def Obligations.EncodeOfDecodeIsTheWord : Prop :=
  ∀ cw w i, decode cw w = .instr i → encode cw i = w ∧ i.WellFormed cw = true

/-- R98: the words that are Unknown, in terms of the word's number alone, for either CLEAR_WORD; and Unknown carries its word. -/
def Obligations.UnknownWordsAreExactlyTheUnlisted : Prop :=
  ∀ cw (w : Word),
    ((∃ u, decode cw w = .unknown u) ↔
      ((w.toNat / 4096 = 5 ∨ w.toNat / 4096 = 9) ∧ w.toNat % 16 ≠ 0) ∨
      (w.toNat / 4096 = 8 ∧ w.toNat % 16 ∈ [8, 9, 10, 11, 12, 13, 15]) ∨
      (w.toNat / 4096 = 14 ∧ w.toNat % 256 ∉ [0x9E, 0xA1]) ∨
      (w.toNat / 4096 = 15 ∧ w.toNat % 256 ∉ [0x07, 0x0A, 0x15, 0x18, 0x1E, 0x29, 0x33, 0x55, 0x65])) ∧
    ∀ u, decode cw w = .unknown u → u = w

/-- R96 and R97: the two words of Clear by CLEAR_WORD, and every other 0nnn word but 0x00EE is the deprecated Call. -/
def Obligations.ClearReturnAndCallShareMajorZero : Prop :=
  (∀ cw : ClearWord, decode cw cw.word = .instr .clear ∧ decode cw 0x00EE = .instr .ret) ∧
  decode .zero 0x00E0 = .instr (.call 0x0E0) ∧ decode .e0 0x0000 = .instr (.call 0x000) ∧
  ∀ (cw : ClearWord) (w : Word), w.toNat < 4096 → w ≠ cw.word → w ≠ 0x00EE →
    decode cw w = .instr (.call (BitVec.ofNat 12 w.toNat))

/-- Words written out from R105's table, at fixed operands: a sanity statement. -/
def Obligations.WrittenOutWordsDecode : Prop :=
  ∀ cw, decode cw 0x1ABC = .instr (.jump 0xABC) ∧ decode cw 0x3A42 = .instr (.skipIfEq 10 0x42) ∧
    decode cw 0x812E = .instr (.shl 1 2) ∧ decode cw 0x9AB0 = .instr (.skipIfRegNeq 10 11) ∧
    decode cw 0xC30F = .instr (.random 3 0x0F) ∧ decode cw 0xD125 = .instr (.draw 1 2 5) ∧
    decode cw 0xE0A1 = .instr (.skipIfNotKey 0) ∧ decode cw 0xFF65 = .instr (.memLoad 15) ∧
    decode cw 0xA2EA = .instr (.setIndex 0x2EA) ∧ decode cw 0x00EE = .instr .ret ∧
    decode cw 0x5121 = .unknown 0x5121

/-! ### The step transaction -/

/-- R120, R122 and R123 joined to the decoder: when both bytes at PC exist and decode to an instruction, STEP(rnd) is that
instruction's meaning, with `rnd` at hand and PC advanced by 2. The second clause, STEP with a free byte when no command is listed, is
the model's choice of assumption log entries 2 and 3. -/
def Obligations.StepRunsTheDecodedInstruction : Prop :=
  ∀ (s : State) (i : Instr), s.pc.toNat + 1 < ramSize →
    decode s.config.clearWord (s.byteAt s.pc.toNat ++ s.byteAt (s.pc.toNat + 1)) = .instr i →
    (∀ rnd rest, s.pending = .step rnd :: rest →
      step s = exec i { s with pending := rest, rnd := rnd, pc := s.pc + 2 }) ∧
    (s.pending = [] →
      step s = exec i { s with rnd := Config.randomByte s.draws, draws := s.draws + 1, pc := s.pc + 2 })

/-- R121: the fetched word's two bytes, the first one high; and a fetch whose two bytes do not both exist reports the lowest missing
address and changes nothing, PC included, so the same failure follows at the next STEP. -/
def Obligations.FailedFetchChangesNothing : Prop :=
  ∀ s : State,
    (fetchWord s).toNat = (s.byteAt s.pc.toNat).toNat * 256 + (s.byteAt (s.pc.toNat + 1)).toNat ∧
    ∀ rnd rest, s.pending = .step rnd :: rest → ramSize ≤ s.pc.toNat + 1 →
      ∃ t, step s = .next t ∧ t.toMachineState = s.toMachineState ∧ t.config = s.config ∧ t.pending = rest ∧
        t.response = .stepError
          (.addressOutOfRange .memory (if ramSize ≤ s.pc.toNat then s.pc.toNat else s.pc.toNat + 1) .fetch) s.pc

/-- R125 at the level of the step: an Unknown word raises UnknownOpcode and only the fetch's advance of PC stands. The word 0x0000 is
never Unknown. -/
def Obligations.UnknownWordOnlyAdvancesPc : Prop :=
  decode .e0 0x0000 = .instr (.call 0x000) ∧
  ∀ (s : State) rnd rest (w : Word), s.pending = .step rnd :: rest → s.pc.toNat + 1 < ramSize →
    w = s.byteAt s.pc.toNat ++ s.byteAt (s.pc.toNat + 1) →
    decode s.config.clearWord w = .unknown w →
    ∃ t, step s = .next t ∧ t.response = .stepError (.unknownOpcode w) s.pc ∧
      t.toMachineState = { s.toMachineState with pc := s.pc + 2 } ∧ t.config = s.config ∧ t.pending = rest

/-- R124, for all instructions: whenever a meaning answers a step error, the state is exactly the one it was given, that after
the advance; the error carries the fetch address. -/
def Obligations.StepErrorsWriteNothing : Prop :=
  ∀ i (s t : State) e p, exec i s = .next t → t.response = .stepError e p →
    p = s.pc - 2 ∧ t.toMachineState = s.toMachineState ∧ KeepsExcept [] s t

/-- R202: which instruction raises which step error, and when. -/
def Obligations.StepErrorsByInstruction : Prop :=
  ∀ i (s t : State) e p, exec i s = .next t → t.response = .stepError e p →
    (∃ nnn, i = .call nnn ∧ e = .deprecatedOpcode (BitVec.ofNat 16 nnn.toNat) nnn) ∨
    (∃ nnn, i = .callSub nnn ∧ e = .stackOverflow s.sp.toNat ∧ 16 ≤ s.sp.toNat) ∨
    (i = .ret ∧ e = .stackUnderflow 0 ∧ s.sp.toNat = 0) ∨
    (∃ n a, ((∃ x y m, i = .draw x y m ∧ n = m.val) ∨ (∃ x, i = .bcd x ∧ n = 3) ∨
        (∃ x, i = .memStore x ∧ n = x.val + 1) ∨ (∃ x, i = .memLoad x ∧ n = x.val + 1)) ∧
      e = .addressOutOfRange .memory a .execute ∧ ramSize ≤ a ∧ s.i.toNat ≤ a ∧ a < s.i.toNat + n ∧
      (∀ b, s.i.toNat ≤ b → b < a → b < ramSize)) ∨
    (∃ x, (i = .skipIfKey x ∨ i = .skipIfNotKey x) ∧ 16 ≤ (getV s x).toNat ∧
      e = .addressOutOfRange .keypad (getV s x).toNat .execute)

/-- Derived from R126: an error does not latch; no transition's result depends on the response before it (that the response is a
field of the state is the model's choice, assumption log entry 1). -/
def Obligations.NoStepReadsTheLastResponse : Prop :=
  ∀ (s : State) r, step { s with response := r } = step s

/-- R123: only Random reads the byte supplied with the STEP; every other instruction does the same whatever it is. -/
def Obligations.OnlyRandomReadsTheRandomByte : Prop :=
  ∀ i (s t : State) r, (∀ x kk, i ≠ .random x kk) → exec i s = .next t →
    exec i { s with rnd := r } = .next { t with rnd := r }

/-! ### Invariants -/

/-- Derived from R7, R37, R43, R48 and R60: the power-on state of every configuration in R7's domains meets the invariant (memory's
canonical form in it is the model's choice, assumption log entry 5). -/
def Obligations.ResetMeetsTheInvariant : Prop :=
  ∀ c : Config, c.wf = true → (State.resetWith c).Inv

/-- R127 with R37, R43 and R60: from every state that meets the invariant, whatever the host's next command, the machine goes on and the
invariant holds again (memory's canonical form in it is the model's choice, assumption log entry 5). -/
def Obligations.EveryTransitionGoesOnAndKeepsTheInvariant : Prop :=
  ∀ s : State, s.Inv → ∃ t, step s = .next t ∧ t.Inv

/-- Derived from R46: no command and no instruction changes the configuration (that it stands in the state as a constant field is the
model's choice, assumption log entry 8). -/
def Obligations.ConfigurationNeverChanges : Prop :=
  ∀ s t : State, step s = .next t → t.config = s.config

/-- The memory's canonical form (the model's choice, assumption log entry 5): two memories that read the same at every address that
exists are the same list. -/
def Obligations.CanonicalMemoriesThatReadAlikeAreEqual : Prop :=
  ∀ c (m m' : Memory), Memory.wf c m = true → Memory.wf c m' = true →
    (∀ a, a < ramSize → Memory.read c m a = Memory.read c m' a) → m = m'

/-! ### Who writes what -/

/-- R32's column of written registers, for all instructions: no other register changes (in particular VF, R31). -/
def Obligations.OnlyTheListedRegistersAreWritten : Prop :=
  ∀ i (s t : State), exec i s = .next t → ∀ r, r ∉ writtenRegs i → getV t r = getV s r

/-- R61: Bcd and MemStore are the only instructions that change memory, and only at their own addresses. -/
def Obligations.OnlyBcdAndMemStoreWriteMemory : Prop :=
  ∀ i (s t : State) a, s.Inv → exec i s = .next t → t.byteAt a ≠ s.byteAt a →
    ((∃ x, i = .bcd x) ∧ s.i.toNat ≤ a ∧ a < s.i.toNat + 3) ∨
    (∃ x : RegIdx, i = .memStore x ∧ s.i.toNat ≤ a ∧ a < s.i.toNat + (x.val + 1))

/-- R41, R42 and R43: the stack is changed only by CallSub and its pointer only by CallSub and Return, the framebuffer only by Clear
and Draw, the keypad by no instruction. -/
def Obligations.StackKeypadAndFramebufferHaveTheirOwnWriters : Prop :=
  ∀ i (s t : State), exec i s = .next t →
    t.key = s.key ∧
    (t.stack ≠ s.stack → ∃ nnn, i = .callSub nnn) ∧
    (t.sp ≠ s.sp → i = .ret ∨ ∃ nnn, i = .callSub nnn) ∧
    (t.fb ≠ s.fb → i = .clear ∨ ∃ x y n, i = .draw x y n)

/-- R33, R38, R39 and R209: who writes I and the timers. -/
def Obligations.IndexAndTimersHaveTheirOwnWriters : Prop :=
  ∀ i (s t : State), exec i s = .next t →
    (t.dt ≠ s.dt → ∃ x, i = .setDelay x) ∧
    (t.st ≠ s.st → ∃ x, i = .setSound x) ∧
    (t.i ≠ s.i → (∃ nnn, i = .setIndex nnn) ∨ (∃ x, i = .memAdd x) ∨ (∃ x, i = .memFont x) ∨
      (s.config.lsIMode ≠ .keep ∧ ∃ x, i = .memStore x ∨ i = .memLoad x))

/-- R128 and R130: apart from the four transfers, an instruction leaves PC where the fetch advanced it, or a skip moves it on by 2,
or WaitKey alone moves it back by 2. -/
def Obligations.PcMovesBySkipRewindOrTransfer : Prop :=
  ∀ i (s t : State), exec i s = .next t →
    (∀ nnn, i ≠ .jump nnn ∧ i ≠ .callSub nnn ∧ i ≠ .jumpPlusV0 nnn) → i ≠ .ret →
    t.pc = s.pc ∨
    (t.pc = s.pc + 2 ∧ ∃ x y kk, i = .skipIfEq x kk ∨ i = .skipIfNeq x kk ∨ i = .skipIfRegEq x y ∨
      i = .skipIfRegNeq x y ∨ i = .skipIfKey x ∨ i = .skipIfNotKey x) ∨
    (t.pc = s.pc - 2 ∧ ∃ x, i = .waitKey x)

/-! ### Control flow -/

/-- R135 and R141: Jump and JumpPlusV0. -/
def Obligations.JumpsTakeTheirTarget : Prop :=
  ∀ nnn : BitVec 12,
    Encodes (formNNN 0x1 nnn) (.jump nnn) ∧ Encodes (formNNN 0xB nnn) (.jumpPlusV0 nnn) ∧
    TransfersTo (.jump nnn) (fun _ => BitVec.ofNat 16 nnn.toNat) ∧
    TransfersTo (.jumpPlusV0 nnn) (fun s => BitVec.ofNat 16 (nnn.toNat + (getV s 0).toNat)) ∧
    ∀ s : State, nnn.toNat + (getV s 0).toNat < 2 ^ 16

/-- R136 and R131: CallSub pushes the advanced PC; with 16 entries in use it raises StackOverflow. -/
def Obligations.CallSubPushesTheReturnAddress : Prop :=
  ∀ (nnn : BitVec 12) (s : State),
    Encodes (formNNN 0x2 nnn) (.callSub nnn) ∧
    (∀ h : s.sp.toNat < stackDepth, ∃ t, exec (.callSub nnn) s = .next t ∧ t.response = .ok ∧
      t.pc = BitVec.ofNat 16 nnn.toNat ∧ t.sp.toNat = s.sp.toNat + 1 ∧ t.stack[s.sp.toNat] = s.pc ∧
      (∀ j (hj : j < stackDepth), j ≠ s.sp.toNat → t.stack[j] = s.stack[j]) ∧
      KeepsExcept [.pc, .sp, .stack] s t) ∧
    (stackDepth ≤ s.sp.toNat → Raises (.callSub nnn) s (.stackOverflow s.sp.toNat))

/-- R133 and R132: Return pops into PC and the entry keeps its value; with an empty stack it raises StackUnderflow. -/
def Obligations.ReturnPopsIntoPc : Prop :=
  ∀ s : State,
    Encodes 0x00EE .ret ∧
    (∀ (_ : 0 < s.sp.toNat) (_ : s.sp.toNat ≤ stackDepth), ∃ t, exec .ret s = .next t ∧ t.response = .ok ∧
      t.pc = s.stack[s.sp.toNat - 1] ∧ t.sp.toNat = s.sp.toNat - 1 ∧ KeepsExcept [.pc, .sp] s t) ∧
    (s.sp.toNat = 0 → Raises .ret s (.stackUnderflow 0))

/-- Derived from R37, R41 and R132: a Return with SP above 16, where the entry it would pop does not exist, stops the machine (the
model's choice, assumption log entry 6; no run reaches it). -/
def Obligations.ReturnBeyondTheStackStops : Prop :=
  ∀ s : State, stackDepth < s.sp.toNat → exec .ret s = .fault (.stackEntryMissing (s.sp.toNat - 1))

/-- Derived from R131, R132, R133 and R136, the source's stack round trip: a CallSub and then a Return come back to the word after
the call with the stack pointer as before. -/
def Obligations.ReturnUndoesCallSub : Prop :=
  ∀ (nnn : BitVec 12) (s t u : State), exec (.callSub nnn) s = .next t → t.response = .ok →
    u.sp = t.sp → u.stack = t.stack →
    ∃ r, exec .ret u = .next r ∧ r.response = .ok ∧ r.pc = s.pc ∧ r.sp = s.sp ∧ KeepsExcept [.pc, .sp] u r

/-- R137 to R140 and R130: the four skips on constants and registers. -/
def Obligations.SkipsOnConstantsAndRegisters : Prop :=
  ∀ (x y : RegIdx) (kk : Byte),
    Encodes (formXKK 0x3 x kk) (.skipIfEq x kk) ∧ Encodes (formXKK 0x4 x kk) (.skipIfNeq x kk) ∧
    Encodes (formXYN 0x5 x y 0) (.skipIfRegEq x y) ∧ Encodes (formXYN 0x9 x y 0) (.skipIfRegNeq x y) ∧
    TransfersTo (.skipIfEq x kk) (fun s => if getV s x = kk then s.pc + 2 else s.pc) ∧
    TransfersTo (.skipIfNeq x kk) (fun s => if getV s x ≠ kk then s.pc + 2 else s.pc) ∧
    TransfersTo (.skipIfRegEq x y) (fun s => if getV s x = getV s y then s.pc + 2 else s.pc) ∧
    TransfersTo (.skipIfRegNeq x y) (fun s => if getV s x ≠ getV s y then s.pc + 2 else s.pc)

/-- R134: the deprecated Call raises DeprecatedOpcode in every state and does nothing else; that is its whole effect. -/
def Obligations.DeprecatedCallOnlyReports : Prop :=
  ∀ (nnn : BitVec 12) (s : State),
    (∀ cw : ClearWord, nnn.setWidth 16 ≠ cw.word → nnn ≠ 0x0EE → decode cw (formNNN 0x0 nnn) = .instr (.call nnn)) ∧
    Raises (.call nnn) s (.deprecatedOpcode (BitVec.ofNat 16 nnn.toNat) nnn)

/-! ### ALU -/

/-- R153 and R154: SetConst and AddConst; AddConst wraps and writes no flag. -/
def Obligations.ConstantsWriteOnlyTheirRegister : Prop :=
  ∀ (x : RegIdx) (kk : Byte),
    Encodes (formXKK 0x6 x kk) (.setConst x kk) ∧ Encodes (formXKK 0x7 x kk) (.addConst x kk) ∧
    WritesRegister (.setConst x kk) x (fun _ => kk) ∧
    WritesRegister (.addConst x kk) x (fun s => BitVec.ofNat 8 (((getV s x).toNat + kk.toNat) % 256))

/-- R155 to R158: Copy, Or, And and Xor; VF is not written unless it is the destination. -/
def Obligations.CopyAndLogicWriteNoFlag : Prop :=
  ∀ x y : RegIdx,
    Encodes (formXYN 0x8 x y 0) (.copy x y) ∧ Encodes (formXYN 0x8 x y 1) (.or x y) ∧
    Encodes (formXYN 0x8 x y 2) (.and x y) ∧ Encodes (formXYN 0x8 x y 3) (.xor x y) ∧
    WritesRegister (.copy x y) x (fun s => getV s y) ∧
    WritesRegister (.or x y) x (fun s => BitVec.ofNat 8 ((getV s x).toNat ||| (getV s y).toNat)) ∧
    WritesRegister (.and x y) x (fun s => BitVec.ofNat 8 ((getV s x).toNat &&& (getV s y).toNat)) ∧
    WritesRegister (.xor x y) x (fun s => BitVec.ofNat 8 ((getV s x).toNat ^^^ (getV s y).toNat))

/-- R159 and R152: AddReg, VF the carry, written last. -/
def Obligations.AddRegSetsCarry : Prop :=
  ∀ x y : RegIdx,
    Encodes (formXYN 0x8 x y 4) (.addReg x y) ∧
    WritesResultThenFlag (.addReg x y) x (fun s => ((getV s x).toNat + (getV s y).toNat) % 256)
      (fun s => (getV s x).toNat + (getV s y).toNat > 0xFF)

/-- R160 and R162: Sub and SubN, VF NOT-borrow, written last; equal operands do not borrow. -/
def Obligations.SubtractionsSetNotBorrow : Prop :=
  ∀ x y : RegIdx,
    Encodes (formXYN 0x8 x y 5) (.sub x y) ∧ Encodes (formXYN 0x8 x y 7) (.subN x y) ∧
    WritesResultThenFlag (.sub x y) x (fun s => (256 + (getV s x).toNat - (getV s y).toNat) % 256)
      (fun s => (getV s x).toNat ≥ (getV s y).toNat) ∧
    WritesResultThenFlag (.subN x y) x (fun s => (256 + (getV s y).toNat - (getV s x).toNat) % 256)
      (fun s => (getV s y).toNat ≥ (getV s x).toNat)

/-- R161 and R163: Shr and Shl shift Vx, VF is the bit shifted out, written last; the y field changes nothing (R103). -/
def Obligations.ShiftsMoveTheLostBitToVF : Prop :=
  ∀ x y : RegIdx,
    Encodes (formXYN 0x8 x y 6) (.shr x y) ∧ Encodes (formXYN 0x8 x y 0xE) (.shl x y) ∧
    WritesResultThenFlag (.shr x y) x (fun s => (getV s x).toNat / 2) (fun s => (getV s x).toNat % 2 = 1) ∧
    WritesResultThenFlag (.shl x y) x (fun s => (getV s x).toNat * 2 % 256) (fun s => (getV s x).toNat ≥ 128) ∧
    ∀ y' s, exec (.shr x y') s = exec (.shr x y) s ∧ exec (.shl x y') s = exec (.shl x y) s

/-- R165 and R8: Random masks the byte supplied with the STEP, any byte, and writes no flag. -/
def Obligations.RandomMasksTheSuppliedByte : Prop :=
  ∀ (x : RegIdx) (kk : Byte),
    Encodes (formXKK 0xC x kk) (.random x kk) ∧
    WritesRegister (.random x kk) x (fun s => BitVec.ofNat 8 (s.rnd.toNat &&& kk.toNat))

/-! ### Address register and memory -/

/-- R170 to R172: SetIndex, MemAdd (wraps at 16 bits) and MemFont (the full byte times 5); VF is not written. -/
def Obligations.IndexInstructionsWriteOnlyI : Prop :=
  ∀ (x : RegIdx) (nnn : BitVec 12),
    Encodes (formNNN 0xA nnn) (.setIndex nnn) ∧ Encodes (formXKK 0xF x 0x1E) (.memAdd x) ∧
    Encodes (formXKK 0xF x 0x29) (.memFont x) ∧
    WritesIndex (.setIndex nnn) (fun _ => nnn.toNat) ∧
    WritesIndex (.memAdd x) (fun s => (s.i.toNat + (getV s x).toNat) % 2 ^ 16) ∧
    WritesIndex (.memFont x) (fun s => (getV s x).toNat * 5)

/-- R173: Bcd stores the three decimal digits at I, I+1, I+2, and nothing else changes. -/
def Obligations.BcdStoresTheDecimalDigits : Prop :=
  ∀ (x : RegIdx) (s : State),
    Encodes (formXKK 0xF x 0x33) (.bcd x) ∧
    (s.Inv → s.i.toNat + 2 < ramSize → ∃ t, exec (.bcd x) s = .next t ∧ t.response = .ok ∧
      (t.byteAt s.i.toNat).toNat = (getV s x).toNat / 100 ∧
      (t.byteAt (s.i.toNat + 1)).toNat = (getV s x).toNat / 10 % 10 ∧
      (t.byteAt (s.i.toNat + 2)).toNat = (getV s x).toNat % 10 ∧
      KeepsMemoryOutside s.i.toNat 3 s t ∧ KeepsExcept [.mem] s t) ∧
    (ramSize ≤ s.i.toNat + 2 →
      Raises (.bcd x) s (.addressOutOfRange .memory (max s.i.toNat ramSize) .execute))

/-- R174 and R176: MemStore stores V0..Vx from I on, then updates I as LS_I_MODE says; out of range it stores nothing. -/
def Obligations.MemStoreCopiesRegistersToMemory : Prop :=
  ∀ (x : RegIdx) (s : State),
    Encodes (formXKK 0xF x 0x55) (.memStore x) ∧
    (s.Inv → s.i.toNat + x.val < ramSize → ∃ t, exec (.memStore x) s = .next t ∧ t.response = .ok ∧
      (∀ r : RegIdx, r.val ≤ x.val → t.byteAt (s.i.toNat + r.val) = getV s r) ∧
      t.i.toNat = (match s.config.lsIMode with
        | .keep => s.i.toNat | .plusXPlus1 => (s.i.toNat + x.val + 1) % 2 ^ 16 | .plusX => (s.i.toNat + x.val) % 2 ^ 16) ∧
      KeepsMemoryOutside s.i.toNat (x.val + 1) s t ∧ KeepsExcept [.mem, .i] s t) ∧
    (ramSize ≤ s.i.toNat + x.val →
      Raises (.memStore x) s (.addressOutOfRange .memory (max s.i.toNat ramSize) .execute))

/-- R175 and R176: MemLoad loads V0..Vx from I on, then updates I as LS_I_MODE says; out of range it loads nothing. -/
def Obligations.MemLoadCopiesMemoryToRegisters : Prop :=
  ∀ (x : RegIdx) (s : State),
    Encodes (formXKK 0xF x 0x65) (.memLoad x) ∧
    (s.i.toNat + x.val < ramSize → ∃ t, exec (.memLoad x) s = .next t ∧ t.response = .ok ∧
      (∀ r : RegIdx, getV t r = if r.val ≤ x.val then s.byteAt (s.i.toNat + r.val) else getV s r) ∧
      t.i.toNat = (match s.config.lsIMode with
        | .keep => s.i.toNat | .plusXPlus1 => (s.i.toNat + x.val + 1) % 2 ^ 16 | .plusX => (s.i.toNat + x.val) % 2 ^ 16) ∧
      KeepsExcept [.v, .i] s t) ∧
    (ramSize ≤ s.i.toNat + x.val →
      Raises (.memLoad x) s (.addressOutOfRange .memory (max s.i.toNat ramSize) .execute))

/-- R74 and R250: bytes MemStore writes where the next fetch reads are the word that fetch gets, in every mode of I. -/
def Obligations.StoredBytesAreFetchedNext : Prop :=
  ∀ (x : RegIdx) (s : State), s.Inv → 1 ≤ x.val → s.i = s.pc → s.pc.toNat + x.val < ramSize →
    ∃ t, exec (.memStore x) s = .next t ∧ t.pc = s.pc ∧ fetchWord t = getV s 0 ++ getV s 1

/-! ### Display -/

/-- R180: Clear turns every pixel off and changes nothing else, VF included. -/
def Obligations.ClearTurnsEveryPixelOff : Prop :=
  ∀ s : State, decode s.config.clearWord s.config.clearWord.word = .instr .clear ∧
    ∃ t, exec .clear s = .next t ∧ t.response = .ok ∧
      t.fb.length = s.config.screenW * s.config.screenH ∧
      (∀ px py, px < s.config.screenW → py < s.config.screenH → pixel t px py = false) ∧
      KeepsExcept [.fb] s t

/-- R181 in closed form, for every screen: a pixel is inverted once for each set sprite bit that lands on it, and VF tells whether
some inversion found its pixel lit: it was lit at the start, or it was hit twice. -/
def Obligations.DrawXorsTheSpriteAndReportsErasure : Prop :=
  ∀ (x y : RegIdx) (n : Fin 16) (s : State),
    Encodes (formXYN 0xD x y (BitVec.ofNat 4 n.val)) (.draw x y n) ∧
    (s.Inv → (n.val = 0 ∨ s.i.toNat + n.val ≤ ramSize) → ∃ t, exec (.draw x y n) s = .next t ∧ t.response = .ok ∧
      (∀ px py, px < s.config.screenW → py < s.config.screenH →
        pixel t px py = (pixel s px py ^^
          decide (spriteHits s (getV s x).toNat (getV s y).toNat n.val px py % 2 = 1))) ∧
      (getV t vF = 1 ↔ ∃ px py, px < s.config.screenW ∧ py < s.config.screenH ∧
        ((pixel s px py = true ∧ 1 ≤ spriteHits s (getV s x).toNat (getV s y).toNat n.val px py) ∨
          2 ≤ spriteHits s (getV s x).toNat (getV s y).toNat n.val px py)) ∧
      (getV t vF = 0 ∨ getV t vF = 1) ∧
      (∀ r, r ≠ vF → getV t r = getV s r) ∧ t.fb.length = s.fb.length ∧ KeepsExcept [.v, .fb] s t) ∧
    (0 < n.val → ramSize < s.i.toNat + n.val →
      Raises (.draw x y n) s (.addressOutOfRange .memory (max s.i.toNat ramSize) .execute))

/-- R181's example, the source's XOR self-cancellation: the same sprite drawn again at the same location restores the framebuffer,
and the second draw reports VF = 1 when some pixel differed after the first. -/
def Obligations.DrawingTwiceRestoresTheScreen : Prop :=
  ∀ (x y : RegIdx) (n : Fin 16) (s t u : State), s.Inv →
    exec (.draw x y n) s = .next t → t.response = .ok →
    u.fb = t.fb → u.config = s.config → u.i = s.i → (∀ a, u.byteAt a = s.byteAt a) →
    getV u x = getV s x → getV u y = getV s y →
    ∃ r, exec (.draw x y n) u = .next r ∧ r.response = .ok ∧ r.fb = s.fb ∧
      ((∃ px py, px < s.config.screenW ∧ py < s.config.screenH ∧ pixel s px py = false ∧ pixel t px py = true) →
        getV r vF = 1)

/-- R182: Draw of zero rows reads no memory, changes no pixel, writes VF = 0 and cannot fault whatever I holds. -/
def Obligations.DrawOfNoRowsOnlyClearsVF : Prop :=
  ∀ (x y : RegIdx) (s : State), ∃ t, exec (.draw x y 0) s = .next t ∧ t.response = .ok ∧ getV t vF = 0 ∧
    (∀ r, r ≠ vF → getV t r = getV s r) ∧ KeepsExcept [.v] s t

/-! ### Keypad and timers -/

/-- R190 to R192: the skips on a key, and the typed failure for a value that names no key. -/
def Obligations.SkipsOnKeys : Prop :=
  ∀ (x : RegIdx) (s : State),
    Encodes (formXKK 0xE x 0x9E) (.skipIfKey x) ∧ Encodes (formXKK 0xE x 0xA1) (.skipIfNotKey x) ∧
    (∀ h : (getV s x).toNat < nKeys,
      (∃ t, exec (.skipIfKey x) s = .next t ∧ t.response = .ok ∧
        t.pc = (if s.key[(getV s x).toNat] = true then s.pc + 2 else s.pc) ∧ KeepsExcept [.pc] s t) ∧
      (∃ t, exec (.skipIfNotKey x) s = .next t ∧ t.response = .ok ∧
        t.pc = (if s.key[(getV s x).toNat] = false then s.pc + 2 else s.pc) ∧ KeepsExcept [.pc] s t)) ∧
    (nKeys ≤ (getV s x).toNat →
      Raises (.skipIfKey x) s (.addressOutOfRange .keypad (getV s x).toNat .execute) ∧
      Raises (.skipIfNotKey x) s (.addressOutOfRange .keypad (getV s x).toNat .execute))

/-- R193 and R194: WaitKey takes the lowest pressed key; with none it moves PC back by 2 and changes nothing else. -/
def Obligations.WaitKeyTakesTheLowestKeyOrRewinds : Prop :=
  ∀ (x : RegIdx) (s : State),
    Encodes (formXKK 0xF x 0x0A) (.waitKey x) ∧
    (∀ k (h : k < nKeys), s.key[k] = true → (∀ j (_ : j < k), s.key[j] = false) →
      ∃ t, exec (.waitKey x) s = .next t ∧ t.response = .ok ∧ (getV t x).toNat = k ∧
        (∀ r, r ≠ x → getV t r = getV s r) ∧ KeepsExcept [.v] s t) ∧
    ((∀ k (h : k < nKeys), s.key[k] = false) →
      ∃ t, exec (.waitKey x) s = .next t ∧ t.response = .ok ∧ t.pc = s.pc - 2 ∧ KeepsExcept [.pc] s t)

/-- R128 and R221 for a whole STEP: fetched where all keys are up, WaitKey leaves the Machine State exactly as it was. -/
def Obligations.IdleWaitKeyLeavesTheMachineAsItWas : Prop :=
  ∀ (s : State) rnd rest x, s.pending = .step rnd :: rest → s.pc.toNat + 1 < ramSize →
    decode s.config.clearWord (s.byteAt s.pc.toNat ++ s.byteAt (s.pc.toNat + 1)) = .instr (.waitKey x) →
    (∀ k (h : k < nKeys), s.key[k] = false) →
    ∃ t, step s = .next t ∧ t.response = .ok ∧ t.toMachineState = s.toMachineState ∧ t.pending = rest

/-- R195 to R197 with R213: the timer instructions, and `sound_active` after SetSound. -/
def Obligations.TimerInstructionsMoveOneByte : Prop :=
  ∀ (x : RegIdx),
    Encodes (formXKK 0xF x 0x07) (.getDelay x) ∧ Encodes (formXKK 0xF x 0x15) (.setDelay x) ∧
    Encodes (formXKK 0xF x 0x18) (.setSound x) ∧
    WritesRegister (.getDelay x) x (fun s => s.dt) ∧
    (∀ s, ∃ t, exec (.setDelay x) s = .next t ∧ t.response = .ok ∧ t.dt = getV s x ∧ KeepsExcept [.dt] s t) ∧
    (∀ s, ∃ t, exec (.setSound x) s = .next t ∧ t.response = .ok ∧ t.st = getV s x ∧
      (t.soundActive = true ↔ getV s x ≠ 0) ∧ KeepsExcept [.st] s t)

/-! ### Host commands -/

/-- R48, R241 and R242: the power-on values, for every configuration; `State.reset` is the one of R7's defaults. -/
def Obligations.ResetStateHasThePowerOnValues : Prop :=
  (∀ c, PowerOn c (State.resetWith c)) ∧ PowerOn Config.default State.reset ∧
    Config.default.screenW = 64 ∧ Config.default.screenH = 32 ∧ State.reset.pc = 0x200 ∧
    Config.default.clearWord.word = 0 ∧ Config.default.lsIMode = .keep

/-- Derived from R240 and R46: RESET gives the power-on state from any state, keeps the configuration, and answers OK (that it leaves
the commands still listed is the model's choice, assumption log entry 13). -/
def Obligations.ResetCommandReinitialisesEverything : Prop :=
  ∀ (s : State) rest, s.pending = .reset :: rest →
    ∃ t, step s = .next t ∧ t.response = .ok ∧ PowerOn s.config t ∧ t.pending = rest

/-- R211 and R212: TICK takes 1 from each timer that is not 0, independently, and changes nothing else. -/
def Obligations.TickCountsEachTimerDown : Prop :=
  ∀ (s : State) rest, s.pending = .tick :: rest →
    ∃ t, step s = .next t ∧ t.response = .ok ∧ t.dt.toNat = s.dt.toNat - 1 ∧ t.st.toNat = s.st.toNat - 1 ∧
      KeepsExcept [.dt, .st] { s with pending := rest } t

/-- Derived from R211: n TICKs take n from each timer, never below 0, so 255 of them stop both. -/
def Obligations.TicksReachZeroAndStay : Prop :=
  ∀ (n : Nat) (s : State) rest, s.pending = List.replicate n .tick ++ rest →
    ∃ t, Host.Core.run Sys2Proof.core n s = .next t ∧ t.dt.toNat = s.dt.toNat - n ∧ t.st.toNat = s.st.toNat - n ∧
      (255 ≤ n → t.soundActive = false) ∧ t.pending = rest

/-- R215 and R216: a key command changes its own key and nothing else; an index of 16 or more is refused and changes nothing. -/
def Obligations.KeyCommandsSetOneKey : Prop :=
  ∀ (s : State) (k : Nat) rest (down : Bool),
    s.pending = (if down then Command.keyDown k else Command.keyUp k) :: rest →
    (∀ h : k < nKeys, ∃ t, step s = .next t ∧ t.response = .ok ∧ t.key[k] = down ∧
      (∀ j (hj : j < nKeys), j ≠ k → t.key[j] = s.key[j]) ∧ KeepsExcept [.key] { s with pending := rest } t) ∧
    (nKeys ≤ k → ∃ t, step s = .next t ∧ t.response = .commandError (.keyIndexOutOfRange k) ∧
      t.toMachineState = s.toMachineState ∧ KeepsExcept [] { s with pending := rest } t)

/-- R244 to R246 and R76: LOAD copies the bytes verbatim to START_OFFSET on and changes nothing else; what is loaded reads back; an
empty or oversized ROM is refused and changes nothing. -/
def Obligations.LoadCopiesTheRomOrRefuses : Prop :=
  ∀ (s : State) (rom : List Byte) rest, s.Inv → s.pending = .load rom :: rest →
    (0 < rom.length → rom.length ≤ ramSize - s.config.startOffset.word.toNat →
      ∃ t, step s = .next t ∧ t.response = .ok ∧
        (∀ j (h : j < rom.length), t.byteAt (s.config.startOffset.word.toNat + j) = rom[j]) ∧
        KeepsMemoryOutside s.config.startOffset.word.toNat rom.length s t ∧
        KeepsExcept [.mem] { s with pending := rest } t) ∧
    (rom.length = 0 → ∃ t, step s = .next t ∧ t.response = .commandError .emptyRom ∧
      t.toMachineState = s.toMachineState ∧ KeepsExcept [] { s with pending := rest } t) ∧
    (ramSize - s.config.startOffset.word.toNat < rom.length →
      ∃ t, step s = .next t ∧ t.response = .commandError (.romTooLarge rom.length) ∧
        t.toMachineState = s.toMachineState ∧ KeepsExcept [] { s with pending := rest } t)

/-- R217 and R218: the two read commands answer the framebuffer with its dimensions and a copy of the Machine State, and change
nothing. -/
def Obligations.ReadCommandsChangeNothing : Prop :=
  ∀ (s : State) rest,
    (s.pending = .readFb :: rest → ∃ t, step s = .next t ∧
      t.response = .framebuffer s.config.screenW s.config.screenH s.fb ∧
      t.toMachineState = s.toMachineState ∧ KeepsExcept [] { s with pending := rest } t) ∧
    (s.pending = .readState :: rest → ∃ t, step s = .next t ∧ t.response = .machineState s.toMachineState ∧
      t.toMachineState = s.toMachineState ∧ KeepsExcept [] { s with pending := rest } t)
end

