-- ==== Sys2Proof/Laws/Decode.lean ====
section
/-! SUPPORT. The fields of a word built in each format of R92 are the fields it was built from, and a word is the one its fields build.
These are the bit-level facts the round trips of the decoder and the encoder rest on. -/

namespace Sys2Proof

/-! ### Fields of a built word -/

@[simp] theorem major_formNNN (m : BitVec 4) (nnn : BitVec 12) : major (formNNN m nnn) = m := by
  simp only [major, formNNN]
  ext i hi
  simp only [BitVec.getElem_extractLsb', BitVec.getLsbD_append]
  grind

@[simp] theorem fieldNNN_formNNN (m : BitVec 4) (nnn : BitVec 12) : fieldNNN (formNNN m nnn) = nnn := by
  simp only [fieldNNN, formNNN]
  ext i hi
  simp only [BitVec.getElem_extractLsb', BitVec.getLsbD_append]
  grind

@[simp] theorem major_formXKK (m : BitVec 4) (x : RegIdx) (kk : Byte) : major (formXKK m x kk) = m := by
  simp only [major, formXKK]
  ext i hi
  simp only [BitVec.getElem_extractLsb', BitVec.getLsbD_append]
  grind

@[simp] theorem fieldX_formXKK (m : BitVec 4) (x : RegIdx) (kk : Byte) : fieldX (formXKK m x kk) = x := by
  have h : (formXKK m x kk).extractLsb' 8 4 = BitVec.ofFin (w := 4) x := by
    simp only [formXKK]
    ext i hi
    simp only [BitVec.getElem_extractLsb', BitVec.getLsbD_append]
    grind
  simp only [fieldX, h]

@[simp] theorem fieldKK_formXKK (m : BitVec 4) (x : RegIdx) (kk : Byte) : fieldKK (formXKK m x kk) = kk := by
  simp only [fieldKK, formXKK]
  ext i hi
  simp only [BitVec.getElem_extractLsb', BitVec.getLsbD_append]
  grind

@[simp] theorem major_formXYN (m : BitVec 4) (x y : RegIdx) (n : BitVec 4) : major (formXYN m x y n) = m := by
  simp only [major, formXYN]
  ext i hi
  simp only [BitVec.getElem_extractLsb', BitVec.getLsbD_append]
  grind

@[simp] theorem fieldX_formXYN (m : BitVec 4) (x y : RegIdx) (n : BitVec 4) : fieldX (formXYN m x y n) = x := by
  have h : (formXYN m x y n).extractLsb' 8 4 = BitVec.ofFin (w := 4) x := by
    simp only [formXYN]
    ext i hi
    simp only [BitVec.getElem_extractLsb', BitVec.getLsbD_append]
    grind
  simp only [fieldX, h]

@[simp] theorem fieldY_formXYN (m : BitVec 4) (x y : RegIdx) (n : BitVec 4) : fieldY (formXYN m x y n) = y := by
  have h : (formXYN m x y n).extractLsb' 4 4 = BitVec.ofFin (w := 4) y := by
    simp only [formXYN]
    ext i hi
    simp only [BitVec.getElem_extractLsb', BitVec.getLsbD_append]
    grind
  simp only [fieldY, h]

@[simp] theorem fieldN_formXYN (m : BitVec 4) (x y : RegIdx) (n : BitVec 4) : fieldN (formXYN m x y n) = n := by
  simp only [fieldN, formXYN]
  ext i hi
  simp only [BitVec.getElem_extractLsb', BitVec.getLsbD_append]
  grind

/-! ### A word is the one its fields build -/

theorem formNNN_of_fields (w : Word) : formNNN (major w) (fieldNNN w) = w := by
  simp only [formNNN, major, fieldNNN]
  refine BitVec.eq_of_getLsbD_eq fun i hi => ?_
  simp only [BitVec.getLsbD_append, BitVec.getLsbD_extractLsb']
  grind

theorem formXKK_of_fields (w : Word) : formXKK (major w) (fieldX w) (fieldKK w) = w := by
  simp only [formXKK, major, fieldX, fieldKK]
  refine BitVec.eq_of_getLsbD_eq fun i hi => ?_
  simp only [BitVec.getLsbD_append, BitVec.getLsbD_extractLsb', BitVec.ofFin_toFin]
  grind

theorem formXYN_of_fields (w : Word) : formXYN (major w) (fieldX w) (fieldY w) (fieldN w) = w := by
  simp only [formXYN, major, fieldX, fieldY, fieldN]
  refine BitVec.eq_of_getLsbD_eq fun i hi => ?_
  simp only [BitVec.getLsbD_append, BitVec.getLsbD_extractLsb', BitVec.ofFin_toFin]
  grind

/-- A word of family 0 is its 12-bit field (R97). -/
theorem formNNN_zero (nnn : BitVec 12) : formNNN 0x0#4 nnn = nnn.setWidth 16 := by
  simp only [formNNN]
  refine BitVec.eq_of_getLsbD_eq fun i hi => ?_
  simp only [BitVec.getLsbD_append, BitVec.getLsbD_setWidth]
  grind

/-- Draw's row count as a nibble (R91). -/
theorem ofNat_rowCount (n : Fin 16) : BitVec.ofNat 4 n.val = BitVec.ofFin (w := 4) n :=
  BitVec.eq_of_toNat_eq (by simp)

/-! ### The fields as numbers (R9's `v[hi:lo]`) -/

theorem toNat_major (w : Word) : (major w).toNat = w.toNat / 4096 := by
  have := w.isLt
  simp only [major, BitVec.extractLsb'_toNat, Nat.shiftRight_eq_div_pow]
  omega

theorem toNat_fieldN (w : Word) : (fieldN w).toNat = w.toNat % 16 := by
  simp only [fieldN, BitVec.extractLsb'_toNat, Nat.shiftRight_zero]

theorem toNat_fieldKK (w : Word) : (fieldKK w).toNat = w.toNat % 256 := by
  simp only [fieldKK, BitVec.extractLsb'_toNat, Nat.shiftRight_zero]

theorem toNat_fieldNNN (w : Word) : (fieldNNN w).toNat = w.toNat % 4096 := by
  simp only [fieldNNN, BitVec.extractLsb'_toNat, Nat.shiftRight_zero]

/-- A 4-bit major nibble that is none of 0 to E is F, the decoder's last family. -/
theorem major_eq_last (m : BitVec 4)
    (h : m.toNat ∉ List.range 15) : m = 0xF := by
  revert m; decide

/-- A word of a family other than 0 is neither Clear's word nor Return's: it goes to its family. -/
theorem decode_of_major_ne_zero {cw : ClearWord} {w : Word} (h : major w ≠ 0x0#4) : decode cw w = decodeFamily w := by
  have h1 : w ≠ cw.word := by rintro rfl; cases cw <;> exact h rfl
  have h2 : w ≠ 0x00EE := by rintro rfl; exact h rfl
  simp only [decode, if_neg h1, if_neg h2]

end Sys2Proof
end

