-- ==== Sys2Proof/Laws/State.lean ====
section
/-! SUPPORT. What each named update of the state does to each field: one lemma per field per update, so that no later proof unfolds
a record update. -/

namespace Sys2Proof.Machine

/-! ### setV -/

@[simp] theorem setV_v (x : RegIdx) (b : Byte) (s : State) : (setV x b s).v = s.v.set x b := rfl
@[simp] theorem setV_mem (x : RegIdx) (b : Byte) (s : State) : (setV x b s).mem = s.mem := rfl
@[simp] theorem setV_i (x : RegIdx) (b : Byte) (s : State) : (setV x b s).i = s.i := rfl
@[simp] theorem setV_pc (x : RegIdx) (b : Byte) (s : State) : (setV x b s).pc = s.pc := rfl
@[simp] theorem setV_sp (x : RegIdx) (b : Byte) (s : State) : (setV x b s).sp = s.sp := rfl
@[simp] theorem setV_stack (x : RegIdx) (b : Byte) (s : State) : (setV x b s).stack = s.stack := rfl
@[simp] theorem setV_dt (x : RegIdx) (b : Byte) (s : State) : (setV x b s).dt = s.dt := rfl
@[simp] theorem setV_st (x : RegIdx) (b : Byte) (s : State) : (setV x b s).st = s.st := rfl
@[simp] theorem setV_key (x : RegIdx) (b : Byte) (s : State) : (setV x b s).key = s.key := rfl
@[simp] theorem setV_fb (x : RegIdx) (b : Byte) (s : State) : (setV x b s).fb = s.fb := rfl
@[simp] theorem setV_config (x : RegIdx) (b : Byte) (s : State) : (setV x b s).config = s.config := rfl
@[simp] theorem setV_pending (x : RegIdx) (b : Byte) (s : State) : (setV x b s).pending = s.pending := rfl
@[simp] theorem setV_rnd (x : RegIdx) (b : Byte) (s : State) : (setV x b s).rnd = s.rnd := rfl
@[simp] theorem setV_draws (x : RegIdx) (b : Byte) (s : State) : (setV x b s).draws = s.draws := rfl
@[simp] theorem setV_response (x : RegIdx) (b : Byte) (s : State) : (setV x b s).response = s.response := rfl

/-! ### setI -/

@[simp] theorem setI_i (w : Word) (s : State) : (setI w s).i = w := rfl
@[simp] theorem setI_mem (w : Word) (s : State) : (setI w s).mem = s.mem := rfl
@[simp] theorem setI_v (w : Word) (s : State) : (setI w s).v = s.v := rfl
@[simp] theorem setI_pc (w : Word) (s : State) : (setI w s).pc = s.pc := rfl
@[simp] theorem setI_sp (w : Word) (s : State) : (setI w s).sp = s.sp := rfl
@[simp] theorem setI_stack (w : Word) (s : State) : (setI w s).stack = s.stack := rfl
@[simp] theorem setI_dt (w : Word) (s : State) : (setI w s).dt = s.dt := rfl
@[simp] theorem setI_st (w : Word) (s : State) : (setI w s).st = s.st := rfl
@[simp] theorem setI_key (w : Word) (s : State) : (setI w s).key = s.key := rfl
@[simp] theorem setI_fb (w : Word) (s : State) : (setI w s).fb = s.fb := rfl
@[simp] theorem setI_config (w : Word) (s : State) : (setI w s).config = s.config := rfl
@[simp] theorem setI_pending (w : Word) (s : State) : (setI w s).pending = s.pending := rfl
@[simp] theorem setI_rnd (w : Word) (s : State) : (setI w s).rnd = s.rnd := rfl
@[simp] theorem setI_draws (w : Word) (s : State) : (setI w s).draws = s.draws := rfl
@[simp] theorem setI_response (w : Word) (s : State) : (setI w s).response = s.response := rfl

/-! ### jumpTo -/

@[simp] theorem jumpTo_pc (w : Word) (s : State) : (jumpTo w s).pc = w := rfl
@[simp] theorem jumpTo_mem (w : Word) (s : State) : (jumpTo w s).mem = s.mem := rfl
@[simp] theorem jumpTo_v (w : Word) (s : State) : (jumpTo w s).v = s.v := rfl
@[simp] theorem jumpTo_i (w : Word) (s : State) : (jumpTo w s).i = s.i := rfl
@[simp] theorem jumpTo_sp (w : Word) (s : State) : (jumpTo w s).sp = s.sp := rfl
@[simp] theorem jumpTo_stack (w : Word) (s : State) : (jumpTo w s).stack = s.stack := rfl
@[simp] theorem jumpTo_dt (w : Word) (s : State) : (jumpTo w s).dt = s.dt := rfl
@[simp] theorem jumpTo_st (w : Word) (s : State) : (jumpTo w s).st = s.st := rfl
@[simp] theorem jumpTo_key (w : Word) (s : State) : (jumpTo w s).key = s.key := rfl
@[simp] theorem jumpTo_fb (w : Word) (s : State) : (jumpTo w s).fb = s.fb := rfl
@[simp] theorem jumpTo_config (w : Word) (s : State) : (jumpTo w s).config = s.config := rfl
@[simp] theorem jumpTo_pending (w : Word) (s : State) : (jumpTo w s).pending = s.pending := rfl
@[simp] theorem jumpTo_rnd (w : Word) (s : State) : (jumpTo w s).rnd = s.rnd := rfl
@[simp] theorem jumpTo_draws (w : Word) (s : State) : (jumpTo w s).draws = s.draws := rfl
@[simp] theorem jumpTo_response (w : Word) (s : State) : (jumpTo w s).response = s.response := rfl

/-! ### advance -/

@[simp] theorem advance_pc (s : State) : (advance s).pc = s.pc + 2 := rfl
@[simp] theorem advance_mem (s : State) : (advance s).mem = s.mem := rfl
@[simp] theorem advance_v (s : State) : (advance s).v = s.v := rfl
@[simp] theorem advance_i (s : State) : (advance s).i = s.i := rfl
@[simp] theorem advance_sp (s : State) : (advance s).sp = s.sp := rfl
@[simp] theorem advance_stack (s : State) : (advance s).stack = s.stack := rfl
@[simp] theorem advance_dt (s : State) : (advance s).dt = s.dt := rfl
@[simp] theorem advance_st (s : State) : (advance s).st = s.st := rfl
@[simp] theorem advance_key (s : State) : (advance s).key = s.key := rfl
@[simp] theorem advance_fb (s : State) : (advance s).fb = s.fb := rfl
@[simp] theorem advance_config (s : State) : (advance s).config = s.config := rfl
@[simp] theorem advance_pending (s : State) : (advance s).pending = s.pending := rfl
@[simp] theorem advance_rnd (s : State) : (advance s).rnd = s.rnd := rfl
@[simp] theorem advance_draws (s : State) : (advance s).draws = s.draws := rfl
@[simp] theorem advance_response (s : State) : (advance s).response = s.response := rfl

/-! ### rewind -/

@[simp] theorem rewind_pc (s : State) : (rewind s).pc = s.pc - 2 := rfl
@[simp] theorem rewind_mem (s : State) : (rewind s).mem = s.mem := rfl
@[simp] theorem rewind_v (s : State) : (rewind s).v = s.v := rfl
@[simp] theorem rewind_i (s : State) : (rewind s).i = s.i := rfl
@[simp] theorem rewind_sp (s : State) : (rewind s).sp = s.sp := rfl
@[simp] theorem rewind_stack (s : State) : (rewind s).stack = s.stack := rfl
@[simp] theorem rewind_dt (s : State) : (rewind s).dt = s.dt := rfl
@[simp] theorem rewind_st (s : State) : (rewind s).st = s.st := rfl
@[simp] theorem rewind_key (s : State) : (rewind s).key = s.key := rfl
@[simp] theorem rewind_fb (s : State) : (rewind s).fb = s.fb := rfl
@[simp] theorem rewind_config (s : State) : (rewind s).config = s.config := rfl
@[simp] theorem rewind_pending (s : State) : (rewind s).pending = s.pending := rfl
@[simp] theorem rewind_rnd (s : State) : (rewind s).rnd = s.rnd := rfl
@[simp] theorem rewind_draws (s : State) : (rewind s).draws = s.draws := rfl
@[simp] theorem rewind_response (s : State) : (rewind s).response = s.response := rfl

/-! ### storeBytes -/

@[simp] theorem storeBytes_mem (s : State) (a : Nat) (bs : List Byte) :
    (s.storeBytes a bs).mem = Memory.writeBytes s.config s.mem a bs := rfl
@[simp] theorem storeBytes_v (s : State) (a : Nat) (bs : List Byte) : (s.storeBytes a bs).v = s.v := rfl
@[simp] theorem storeBytes_i (s : State) (a : Nat) (bs : List Byte) : (s.storeBytes a bs).i = s.i := rfl
@[simp] theorem storeBytes_pc (s : State) (a : Nat) (bs : List Byte) : (s.storeBytes a bs).pc = s.pc := rfl
@[simp] theorem storeBytes_sp (s : State) (a : Nat) (bs : List Byte) : (s.storeBytes a bs).sp = s.sp := rfl
@[simp] theorem storeBytes_stack (s : State) (a : Nat) (bs : List Byte) : (s.storeBytes a bs).stack = s.stack := rfl
@[simp] theorem storeBytes_dt (s : State) (a : Nat) (bs : List Byte) : (s.storeBytes a bs).dt = s.dt := rfl
@[simp] theorem storeBytes_st (s : State) (a : Nat) (bs : List Byte) : (s.storeBytes a bs).st = s.st := rfl
@[simp] theorem storeBytes_key (s : State) (a : Nat) (bs : List Byte) : (s.storeBytes a bs).key = s.key := rfl
@[simp] theorem storeBytes_fb (s : State) (a : Nat) (bs : List Byte) : (s.storeBytes a bs).fb = s.fb := rfl
@[simp] theorem storeBytes_config (s : State) (a : Nat) (bs : List Byte) : (s.storeBytes a bs).config = s.config := rfl
@[simp] theorem storeBytes_pending (s : State) (a : Nat) (bs : List Byte) : (s.storeBytes a bs).pending = s.pending := rfl
@[simp] theorem storeBytes_rnd (s : State) (a : Nat) (bs : List Byte) : (s.storeBytes a bs).rnd = s.rnd := rfl
@[simp] theorem storeBytes_draws (s : State) (a : Nat) (bs : List Byte) : (s.storeBytes a bs).draws = s.draws := rfl
@[simp] theorem storeBytes_response (s : State) (a : Nat) (bs : List Byte) : (s.storeBytes a bs).response = s.response := rfl

/-! ### skipIf and updateI: one field each, by cases -/

@[simp] theorem skipIf_pc (c : Bool) (s : State) : (skipIf c s).pc = if c then s.pc + 2 else s.pc := by
  cases c <;> rfl
@[simp] theorem skipIf_mem (c : Bool) (s : State) : (skipIf c s).mem = s.mem := by cases c <;> rfl
@[simp] theorem skipIf_v (c : Bool) (s : State) : (skipIf c s).v = s.v := by cases c <;> rfl
@[simp] theorem skipIf_i (c : Bool) (s : State) : (skipIf c s).i = s.i := by cases c <;> rfl
@[simp] theorem skipIf_sp (c : Bool) (s : State) : (skipIf c s).sp = s.sp := by cases c <;> rfl
@[simp] theorem skipIf_stack (c : Bool) (s : State) : (skipIf c s).stack = s.stack := by cases c <;> rfl
@[simp] theorem skipIf_dt (c : Bool) (s : State) : (skipIf c s).dt = s.dt := by cases c <;> rfl
@[simp] theorem skipIf_st (c : Bool) (s : State) : (skipIf c s).st = s.st := by cases c <;> rfl
@[simp] theorem skipIf_key (c : Bool) (s : State) : (skipIf c s).key = s.key := by cases c <;> rfl
@[simp] theorem skipIf_fb (c : Bool) (s : State) : (skipIf c s).fb = s.fb := by cases c <;> rfl
@[simp] theorem skipIf_config (c : Bool) (s : State) : (skipIf c s).config = s.config := by cases c <;> rfl
@[simp] theorem skipIf_pending (c : Bool) (s : State) : (skipIf c s).pending = s.pending := by cases c <;> rfl
@[simp] theorem skipIf_rnd (c : Bool) (s : State) : (skipIf c s).rnd = s.rnd := by cases c <;> rfl
@[simp] theorem skipIf_draws (c : Bool) (s : State) : (skipIf c s).draws = s.draws := by cases c <;> rfl
@[simp] theorem skipIf_response (c : Bool) (s : State) : (skipIf c s).response = s.response := by cases c <;> rfl

@[simp] theorem updateI_i (x : RegIdx) (s : State) : (updateI x s).i =
    match s.config.lsIMode with
    | .keep => s.i
    | .plusXPlus1 => s.i + BitVec.ofNat 16 (x.val + 1)
    | .plusX => s.i + BitVec.ofNat 16 x.val := by
  unfold updateI; cases s.config.lsIMode <;> rfl
@[simp] theorem updateI_mem (x : RegIdx) (s : State) : (updateI x s).mem = s.mem := by
  unfold updateI; cases s.config.lsIMode <;> rfl
@[simp] theorem updateI_v (x : RegIdx) (s : State) : (updateI x s).v = s.v := by
  unfold updateI; cases s.config.lsIMode <;> rfl
@[simp] theorem updateI_pc (x : RegIdx) (s : State) : (updateI x s).pc = s.pc := by
  unfold updateI; cases s.config.lsIMode <;> rfl
@[simp] theorem updateI_sp (x : RegIdx) (s : State) : (updateI x s).sp = s.sp := by
  unfold updateI; cases s.config.lsIMode <;> rfl
@[simp] theorem updateI_stack (x : RegIdx) (s : State) : (updateI x s).stack = s.stack := by
  unfold updateI; cases s.config.lsIMode <;> rfl
@[simp] theorem updateI_dt (x : RegIdx) (s : State) : (updateI x s).dt = s.dt := by
  unfold updateI; cases s.config.lsIMode <;> rfl
@[simp] theorem updateI_st (x : RegIdx) (s : State) : (updateI x s).st = s.st := by
  unfold updateI; cases s.config.lsIMode <;> rfl
@[simp] theorem updateI_key (x : RegIdx) (s : State) : (updateI x s).key = s.key := by
  unfold updateI; cases s.config.lsIMode <;> rfl
@[simp] theorem updateI_fb (x : RegIdx) (s : State) : (updateI x s).fb = s.fb := by
  unfold updateI; cases s.config.lsIMode <;> rfl
@[simp] theorem updateI_config (x : RegIdx) (s : State) : (updateI x s).config = s.config := by
  unfold updateI; cases s.config.lsIMode <;> rfl
@[simp] theorem updateI_pending (x : RegIdx) (s : State) : (updateI x s).pending = s.pending := by
  unfold updateI; cases s.config.lsIMode <;> rfl
@[simp] theorem updateI_rnd (x : RegIdx) (s : State) : (updateI x s).rnd = s.rnd := by
  unfold updateI; cases s.config.lsIMode <;> rfl
@[simp] theorem updateI_draws (x : RegIdx) (s : State) : (updateI x s).draws = s.draws := by
  unfold updateI; cases s.config.lsIMode <;> rfl
@[simp] theorem updateI_response (x : RegIdx) (s : State) : (updateI x s).response = s.response := by
  unfold updateI; cases s.config.lsIMode <;> rfl

/-! ### Registers -/

/-- A register after a write: the written one holds the value, every other one is as before (R11). -/
@[simp] theorem getV_setV (x r : RegIdx) (b : Byte) (s : State) :
    getV (setV x b s) r = if r = x then b else getV s r := by
  simp only [getV, setV, Fin.getElem_fin, Vector.getElem_set, Fin.ext_iff, eq_comm]

theorem getV_congr (h : (t : State).v = (s : State).v) (r : RegIdx) : getV t r = getV s r := by
  simp only [getV, h]

/-- A flag write reaches VF only (R31). -/
@[simp] theorem getV_setFlag (c : Bool) (r : RegIdx) (s : State) :
    getV (setFlag c s) r = if r = vF then flagByte c else getV s r := getV_setV _ _ _ _

/-- The write order of R152, read back: VF holds the flag whatever x is. -/
@[simp] theorem getV_setResultThenFlag (x r : RegIdx) (b : Byte) (c : Bool) (s : State) :
    getV (setResultThenFlag x b c s) r = if r = vF then flagByte c else if r = x then b else getV s r := by
  simp only [setResultThenFlag, getV_setFlag, getV_setV]

/-- A byte of memory depends on the memory and the configuration alone. -/
theorem byteAt_congr (hm : (t : State).mem = (s : State).mem) (hc : t.config = s.config) (a : Nat) :
    t.byteAt a = s.byteAt a := by
  simp only [State.byteAt, hm, hc]

end Sys2Proof.Machine
end

