-- ==== Sys2Proof/Laws/Memory.lean ====
section
/-! SUPPORT. The laws of memory: a read after a write, the frame of a write, and that every operation keeps the canonical form. -/

namespace Sys2Proof.Machine

variable {c : Config} {m : Memory} {lo lo' a a' : Nat} {b : Byte}

/-! ### The canonical form -/

theorem Memory.wfFrom_cons {k : Nat} {rest : Memory} :
    Memory.wfFrom c lo ((k, b) :: rest) = true ↔
      lo ≤ k ∧ k < ramSize ∧ b ≠ unlistedByte c k ∧ Memory.wfFrom c (k + 1) rest = true := by
  simp only [Memory.wfFrom, Bool.and_eq_true, decide_eq_true_eq, bne_iff_ne, ne_eq, and_assoc]

theorem Memory.wfFrom_mono (h : Memory.wfFrom c lo m = true) (hlo : lo' ≤ lo) : Memory.wfFrom c lo' m = true := by
  cases m with
  | nil => rfl
  | cons e rest =>
    obtain ⟨k, v⟩ := e
    rw [Memory.wfFrom_cons] at h ⊢
    exact ⟨hlo.trans h.1, h.2⟩

theorem Memory.read_cons {k : Nat} {v : Byte} {rest : Memory} :
    Memory.read c ((k, v) :: rest) a = if k = a then v else Memory.read c rest a := rfl

/-- An address below a canonical list's start is not in it. -/
theorem Memory.read_of_lt (h : Memory.wfFrom c lo m = true) (ha : a < lo) :
    Memory.read c m a = unlistedByte c a := by
  induction m generalizing lo with
  | nil => rfl
  | cons e rest ih =>
    obtain ⟨k, v⟩ := e
    rw [Memory.wfFrom_cons] at h
    rw [Memory.read_cons, if_neg (by omega)]
    exact ih h.2.2.2 (by omega)

/-- An address that does not exist is never listed: it reads as unlisted. -/
theorem Memory.read_of_ramSize_le (h : Memory.wfFrom c lo m = true) (ha : ramSize ≤ a) :
    Memory.read c m a = unlistedByte c a := by
  induction m generalizing lo with
  | nil => rfl
  | cons e rest ih =>
    obtain ⟨k, v⟩ := e
    rw [Memory.wfFrom_cons] at h
    rw [Memory.read_cons, if_neg (by omega)]
    exact ih h.2.2.2

/-- Reading back after an insertion. -/
theorem Memory.read_insert (h : Memory.wfFrom c lo m = true) :
    Memory.read c (Memory.insert c m a b) a' = if a' = a then b else Memory.read c m a' := by
  induction m generalizing lo with
  | nil =>
    simp only [Memory.insert]
    split <;> simp only [Memory.read] <;> grind
  | cons e rest ih =>
    obtain ⟨k, v⟩ := e
    rw [Memory.wfFrom_cons] at h
    have hlow : ∀ n, n ≤ k → Memory.read c rest n = unlistedByte c n :=
      fun n hn => Memory.read_of_lt h.2.2.2 (by omega)
    simp only [Memory.insert]
    split
    · have := hlow a (by omega)
      split <;> simp only [Memory.read_cons] <;> grind
    · split
      · have := hlow a (by omega)
        split <;> simp only [Memory.read_cons] <;> grind
      · simp only [Memory.read_cons, ih h.2.2.2]
        grind

/-- An insertion keeps the canonical form. -/
theorem Memory.wfFrom_insert (h : Memory.wfFrom c lo m = true) (hlo : lo ≤ a) (ha : a < ramSize) :
    Memory.wfFrom c lo (Memory.insert c m a b) = true := by
  induction m generalizing lo with
  | nil =>
    simp only [Memory.insert]
    split
    · rfl
    · rw [Memory.wfFrom_cons]; exact ⟨hlo, ha, ‹_›, rfl⟩
  | cons e rest ih =>
    obtain ⟨k, v⟩ := e
    have h' := Memory.wfFrom_cons.mp h
    simp only [Memory.insert]
    split
    · split
      · exact h
      · rw [Memory.wfFrom_cons]
        exact ⟨hlo, ha, ‹_›, Memory.wfFrom_cons.mpr ⟨by omega, h'.2⟩⟩
    · split
      · split
        · exact Memory.wfFrom_mono h'.2.2.2 (by omega)
        · subst a
          rw [Memory.wfFrom_cons]
          exact ⟨hlo, ha, ‹_›, h'.2.2.2⟩
      · rw [Memory.wfFrom_cons]
        exact ⟨h'.1, h'.2.1, h'.2.2.1, ih h'.2.2.2 (by omega)⟩

/-- A write keeps the canonical form, whatever its address. -/
theorem Memory.wf_write (h : Memory.wf c m = true) : Memory.wf c (Memory.write c m a b) = true := by
  unfold Memory.write
  split
  · exact Memory.wfFrom_insert h (Nat.zero_le _) ‹_›
  · exact h

/-- A read after a write to an address that exists (R71). -/
theorem Memory.read_write (h : Memory.wf c m = true) (ha : a < ramSize) :
    Memory.read c (Memory.write c m a b) a' = if a' = a then b else Memory.read c m a' := by
  rw [Memory.write, if_pos ha]
  exact Memory.read_insert h

/-! ### Sequences of bytes -/

/-- A sequence of writes keeps the canonical form. -/
theorem Memory.wf_writeBytes (bs : List Byte) (h : Memory.wf c m = true) :
    Memory.wf c (Memory.writeBytes c m a bs) = true := by
  induction bs generalizing m a with
  | nil => exact h
  | cons b rest ih => exact ih (Memory.wf_write h)

/-- Everything a sequence of writes does to what memory reads as: the bytes themselves where they were written, and no other change. -/
theorem Memory.read_writeBytes (bs : List Byte) (h : Memory.wf c m = true) (ha : a + bs.length ≤ ramSize) :
    Memory.read c (Memory.writeBytes c m a bs) a' =
      if a ≤ a' ∧ a' < a + bs.length then bs.getD (a' - a) 0 else Memory.read c m a' := by
  induction bs generalizing m a with
  | nil => simp only [Memory.writeBytes, List.length_nil]; rw [if_neg (by omega)]
  | cons b rest ih =>
    simp only [List.length_cons] at ha ⊢
    rw [Memory.writeBytes, ih (Memory.wf_write h) (by omega), Memory.read_write h (by omega)]
    by_cases h1 : a' = a
    · subst h1
      rw [if_neg (by omega), if_pos rfl, if_pos (by omega)]
      simp
    · by_cases h2 : a + 1 ≤ a' ∧ a' < a + 1 + rest.length
      · rw [if_pos h2, if_pos (by omega), show a' - a = (a' - (a + 1)) + 1 by omega, List.getD_cons_succ]
      · rw [if_neg h2, if_neg h1, if_neg (by omega)]

/-- A sequence of reads, its length. -/
@[simp] theorem Memory.length_readBytes (n : Nat) : (Memory.readBytes c m a n).length = n := by
  induction n generalizing a with
  | zero => rfl
  | succ n ih => simp only [Memory.readBytes, List.length_cons, ih]

/-- A sequence of reads, byte by byte. -/
theorem Memory.getElem_readBytes {n j : Nat} (h : j < (Memory.readBytes c m a n).length) :
    (Memory.readBytes c m a n)[j] = Memory.read c m (a + j) := by
  induction n generalizing a j with
  | zero => simp only [Memory.readBytes, List.length_nil] at h; omega
  | succ n ih =>
    cases j with
    | zero => rfl
    | succ j =>
      simp only [Memory.readBytes, List.getElem_cons_succ]
      rw [ih]
      congr 1
      omega

/-! ### The same of a state's memory -/

theorem byteAt_storeBytes (s : State) (bs : List Byte) (h : Memory.wf s.config s.mem = true)
    (ha : a + bs.length ≤ ramSize) :
    (s.storeBytes a bs).byteAt a' =
      if a ≤ a' ∧ a' < a + bs.length then bs.getD (a' - a) 0 else s.byteAt a' :=
  Memory.read_writeBytes bs h ha

/-! ### The registers MemStore and MemLoad move -/

theorem length_storedRegs (s : State) (x : RegIdx) : (storedRegs s x).length = x.val + 1 := by
  simp only [storedRegs, List.length_take, Vector.length_toList]
  omega

theorem getD_storedRegs (s : State) (x r : RegIdx) (h : r.val ≤ x.val) :
    (storedRegs s x).getD r.val 0 = getV s r := by
  have hr : r.val < (storedRegs s x).length := by rw [length_storedRegs]; omega
  rw [List.getD_eq_getElem _ _ hr]
  simp [storedRegs, getV]

theorem getElem_loadRegs (v : Vector Byte 16) (n : Nat) (r : RegIdx) :
    (loadRegs c m a v n)[r] = if r.val < n then Memory.read c m (a + r.val) else v[r] := by
  induction n with
  | zero => simp [loadRegs]
  | succ n ih =>
    rw [Fin.getElem_fin] at ih ⊢
    simp only [loadRegs]
    rw [Vector.getElem_setIfInBounds]
    by_cases h : n = r.val
    · subst h; simp
    · rw [if_neg h, ih]
      by_cases h2 : r.val < n
      · rw [if_pos h2, if_pos (by omega)]
      · rw [if_neg h2, if_neg (by omega)]

end Sys2Proof.Machine
end

