-- ==== Sys2Proof/Laws/Ops.lean ====
section
/-! SUPPORT. One lemma per shared operation that says once everything it can do. -/

namespace Sys2Proof.Machine

variable {s t : State} {e : StepError} {n a : Nat} {p : Phase}

/-! ### Completing and raising -/

theorem complete_eq_next : complete s = .next t ↔ t = { s with response := .ok } := by
  simp only [complete, Host.Outcome.next.injEq, eq_comm]

theorem raise_eq_next : raise e s = .next t ↔ t = { s with response := .stepError e (s.pc - 2) } := by
  simp only [raise, Host.Outcome.next.injEq, eq_comm]

/-! ### The range check -/

/-- R64 in closed form: nothing out of range exactly when the last address is below RAM_SIZE or there is none. -/
theorem checkRange_eq_none : checkRange p a n = none ↔ n = 0 ∨ a + n ≤ ramSize := by
  induction n generalizing a with
  | zero => simp [checkRange]
  | succ n ih =>
    simp only [checkRange]
    split
    · simp only [reduceCtorEq, false_iff, false_or]; omega
    · rw [ih]; omega

/-- R64 in closed form: the lowest missing address is `a` itself, or RAM_SIZE. -/
theorem checkRange_eq_some :
    checkRange p a n = some e ↔
      0 < n ∧ ramSize < a + n ∧ e = .addressOutOfRange .memory (max a ramSize) p := by
  induction n generalizing a with
  | zero => simp [checkRange]
  | succ n ih =>
    simp only [checkRange]
    split
    · simp only [Option.some.injEq]
      rw [Nat.max_eq_left ‹_›]
      constructor
      · rintro rfl; exact ⟨by omega, by omega, rfl⟩
      · rintro ⟨_, _, rfl⟩; rfl
    · rw [ih, Nat.max_eq_right (show a ≤ ramSize by omega)]
      constructor
      · rintro ⟨_, _, rfl⟩
        exact ⟨by omega, by omega, by rw [Nat.max_eq_right (by omega)]⟩
      · rintro ⟨_, _, rfl⟩
        exact ⟨by omega, by omega, by rw [Nat.max_eq_right (by omega)]⟩

theorem checkRange_of_fits (h : a + n ≤ ramSize) : checkRange p a n = none :=
  checkRange_eq_none.mpr (.inr h)

theorem checkRange_of_exceeds (hn : 0 < n) (h : ramSize < a + n) :
    checkRange p a n = some (.addressOutOfRange .memory (max a ramSize) p) :=
  checkRange_eq_some.mpr ⟨hn, h, rfl⟩

/-- A guarded body runs when its bytes exist. -/
theorem withinRange_of_fits {body : Result} (h : n = 0 ∨ s.i.toNat + n ≤ ramSize) : withinRange n s body = body := by
  unfold withinRange
  rw [checkRange_eq_none.mpr h]

/-- A guarded body does not run, and the instruction raises, when one of its bytes does not exist. -/
theorem withinRange_of_exceeds {body : Result} (hn : 0 < n) (h : ramSize < s.i.toNat + n) :
    withinRange n s body = raise (.addressOutOfRange .memory (max s.i.toNat ramSize) .execute) s := by
  unfold withinRange
  rw [checkRange_of_exceeds hn h]

/-- All a guarded body can do: run, or raise. -/
theorem withinRange_cases (n : Nat) (s : State) (body : Result) :
    ((n = 0 ∨ s.i.toNat + n ≤ ramSize) ∧ withinRange n s body = body) ∨
    (0 < n ∧ ramSize < s.i.toNat + n ∧
      withinRange n s body = raise (.addressOutOfRange .memory (max s.i.toNat ramSize) .execute) s) := by
  by_cases h : n = 0 ∨ s.i.toNat + n ≤ ramSize
  · exact .inl ⟨h, withinRange_of_fits h⟩
  · exact .inr ⟨by omega, by omega, withinRange_of_exceeds (by omega) (by omega)⟩

/-! ### The return stack -/

theorem push_of_lt {v : Word} {body : State → Result} (h : s.sp.toNat < stackDepth) :
    push v s body = body { s with stack := s.stack.set s.sp.toNat v h, sp := s.sp + 1 } := by
  unfold push
  rw [dif_pos h]

theorem push_of_full {v : Word} {body : State → Result} (h : stackDepth ≤ s.sp.toNat) :
    push v s body = raise (.stackOverflow s.sp.toNat) s := by
  unfold push
  rw [dif_neg (by omega)]

theorem pop_of_empty {body : Word → State → Result} (h : s.sp = 0) : pop s body = raise (.stackUnderflow 0) s := by
  unfold pop
  rw [if_pos h]

theorem pop_of_pos {body : Word → State → Result} (h : 0 < s.sp.toNat) (h' : s.sp.toNat ≤ stackDepth) :
    pop s body = body (s.stack[s.sp.toNat - 1]'(by omega)) { s with sp := s.sp - 1 } := by
  unfold pop
  rw [if_neg (by intro hs; simp [hs] at h), dif_pos (by omega)]

theorem pop_of_beyond {body : Word → State → Result} (h : stackDepth < s.sp.toNat) :
    pop s body = .fault (.stackEntryMissing (s.sp.toNat - 1)) := by
  unfold pop
  rw [if_neg (by intro hs; simp [hs] at h), dif_neg (by omega)]

/-! ### The keypad -/

theorem keyAt_of_lt {k : Byte} {body : Bool → Result} (h : k.toNat < nKeys) : keyAt k s body = body s.key[k.toNat] := by
  unfold keyAt
  rw [dif_pos h]

theorem keyAt_of_missing {k : Byte} {body : Bool → Result} (h : nKeys ≤ k.toNat) :
    keyAt k s body = raise (.addressOutOfRange .keypad k.toNat .execute) s := by
  unfold keyAt
  rw [dif_neg (by omega)]

/-- R193: LowestPressed answers k exactly when key k is down and every lower key is up. -/
theorem lowestPressed_eq_some {k : Nat} :
    lowestPressed s = some k ↔ ∃ h : k < nKeys, s.key[k] = true ∧ ∀ j (_ : j < k), s.key[j] = false := by
  unfold lowestPressed
  rw [List.findIdx?_eq_some_iff_getElem]
  simp only [Vector.length_toList, Vector.getElem_toList, id_eq, Bool.not_eq_true]

/-- R193: LowestPressed answers none exactly when every key is up. -/
theorem lowestPressed_eq_none : lowestPressed s = none ↔ ∀ k (h : k < nKeys), s.key[k] = false := by
  unfold lowestPressed
  rw [List.findIdx?_eq_none_iff]
  simp only [id_eq, List.mem_iff_getElem, Vector.length_toList, Vector.getElem_toList]
  constructor
  · intro h k hk; exact h _ ⟨k, hk, rfl⟩
  · rintro h _ ⟨k, hk, rfl⟩; exact h k hk

/-! ### The framebuffer -/

/-- Writing pixels keeps the size of the grid. -/
theorem length_drawPixels (w : Nat) (fb : List Bool) (ps : List (Nat × Nat)) :
    (drawPixels w fb ps).1.length = fb.length := by
  unfold drawPixels
  suffices h : ∀ acc : List Bool × Bool, (ps.foldl (togglePixel w) acc).1.length = acc.1.length from h _
  induction ps with
  | nil => intro acc; rfl
  | cons p ps ih => intro acc; rw [List.foldl_cons, ih]; simp [togglePixel, fbSet]

/-- A pixel after one write: two pixels of a grid have one linear index only if they are the same pixel (R43). -/
theorem fbGet_fbSet {w x y x' y' : Nat} {fb : List Bool} {lit : Bool} (hx : x < w) (hx' : x' < w)
    (h : y * w + x < fb.length) :
    fbGet w (fbSet w fb x y lit) x' y' = if x' = x ∧ y' = y then lit else fbGet w fb x' y' := by
  have key : y * w + x = y' * w + x' ↔ x' = x ∧ y' = y := by
    constructor
    · intro e
      have hm := congrArg (· % w) e
      have hd := congrArg (· / w) e
      simp only [Nat.mul_add_mod', Nat.mod_eq_of_lt hx, Nat.mod_eq_of_lt hx'] at hm
      rw [show y * w + x = x + w * y by ring, show y' * w + x' = x' + w * y' by ring,
        Nat.add_mul_div_left _ _ (by omega), Nat.add_mul_div_left _ _ (by omega),
        Nat.div_eq_of_lt hx, Nat.div_eq_of_lt hx'] at hd
      omega
    · rintro ⟨rfl, rfl⟩; rfl
  unfold fbGet fbSet
  rw [List.getD_eq_getElem?_getD, List.getD_eq_getElem?_getD, List.getElem?_set]
  by_cases e : y * w + x = y' * w + x'
  · rw [if_pos e, if_pos (key.mp e), if_pos (by omega)]; rfl
  · rw [if_neg e, if_neg (fun q => e (key.mpr q))]

/-- A pixel's linear index lies in the grid (R43). -/
theorem fbIndex_lt {w h x y : Nat} (hx : x < w) (hy : y < h) : y * w + x < w * h := by
  calc y * w + x < y * w + w := by omega
    _ = (y + 1) * w := by ring
    _ ≤ h * w := Nat.mul_le_mul_right w hy
    _ = w * h := Nat.mul_comm h w

end Sys2Proof.Machine
end

