-- ==== Sys2Proof/Laws/Exec.lean ====
section
/-! SUPPORT. The meanings with more than one outcome, one equation per outcome, so that a proof picks the case and does not unfold the
shared operation. -/

namespace Sys2Proof.Machine

variable {s : State} {x y : RegIdx} {nnn : BitVec 12} {n : Fin 16}

/-- A skip as one record update (R130). -/
theorem skipIf_eq (c : Bool) (s : State) : skipIf c s = { s with pc := if c then s.pc + 2 else s.pc } := by
  cases c <;> rfl

theorem execCallSub_of_lt (h : s.sp.toNat < stackDepth) :
    exec (.callSub nnn) s = complete (jumpTo (addressOf nnn)
      { s with stack := s.stack.set s.sp.toNat s.pc h, sp := s.sp + 1 }) :=
  push_of_lt (body := fun t => complete (jumpTo (addressOf nnn) t)) h

theorem execCallSub_of_full (h : stackDepth ≤ s.sp.toNat) :
    exec (.callSub nnn) s = raise (.stackOverflow s.sp.toNat) s :=
  push_of_full (body := fun t => complete (jumpTo (addressOf nnn) t)) h

theorem execRet_of_empty (h : s.sp = 0) : exec .ret s = raise (.stackUnderflow 0) s :=
  pop_of_empty (body := fun target t => complete (jumpTo target t)) h

theorem execRet_of_pos (h : 0 < s.sp.toNat) (h' : s.sp.toNat ≤ stackDepth) :
    exec .ret s = complete (jumpTo (s.stack[s.sp.toNat - 1]'(by omega)) { s with sp := s.sp - 1 }) :=
  pop_of_pos (body := fun target t => complete (jumpTo target t)) h h'

theorem execSkipIfKey_of_lt (h : (getV s x).toNat < nKeys) :
    exec (.skipIfKey x) s = complete (skipIf s.key[(getV s x).toNat] s) :=
  keyAt_of_lt (body := fun down => complete (skipIf down s)) h

theorem execSkipIfKey_of_missing (h : nKeys ≤ (getV s x).toNat) :
    exec (.skipIfKey x) s = raise (.addressOutOfRange .keypad (getV s x).toNat .execute) s :=
  keyAt_of_missing (body := fun down => complete (skipIf down s)) h

theorem execSkipIfNotKey_of_lt (h : (getV s x).toNat < nKeys) :
    exec (.skipIfNotKey x) s = complete (skipIf (!s.key[(getV s x).toNat]) s) :=
  keyAt_of_lt (body := fun down => complete (skipIf (!down) s)) h

theorem execSkipIfNotKey_of_missing (h : nKeys ≤ (getV s x).toNat) :
    exec (.skipIfNotKey x) s = raise (.addressOutOfRange .keypad (getV s x).toNat .execute) s :=
  keyAt_of_missing (body := fun down => complete (skipIf (!down) s)) h

theorem execWaitKey_of_some {k : Nat} (h : lowestPressed s = some k) :
    exec (.waitKey x) s = complete (setV x (BitVec.ofNat 8 k) s) := by
  simp only [exec, execWaitKey, h]

theorem execWaitKey_of_none (h : lowestPressed s = none) : exec (.waitKey x) s = complete (rewind s) := by
  simp only [exec, execWaitKey, h]

theorem execDraw_of_fits (h : n.val = 0 ∨ s.i.toNat + n.val ≤ ramSize) :
    exec (.draw x y n) s = complete (setFlag (drawPixels s.config.screenW s.fb (drawnPixels x y n s)).2
      { s with fb := (drawPixels s.config.screenW s.fb (drawnPixels x y n s)).1 }) :=
  withinRange_of_fits h

theorem execBcd_of_fits (h : s.i.toNat + 3 ≤ ramSize) :
    exec (.bcd x) s = complete (s.storeBytes s.i.toNat (bcdDigits (getV s x))) :=
  withinRange_of_fits (.inr h)

theorem execMemStore_of_fits (h : s.i.toNat + (x.val + 1) ≤ ramSize) :
    exec (.memStore x) s = complete (updateI x (s.storeBytes s.i.toNat (storedRegs s x))) :=
  withinRange_of_fits (.inr h)

theorem execMemLoad_of_fits (h : s.i.toNat + (x.val + 1) ≤ ramSize) :
    exec (.memLoad x) s =
      complete (updateI x { s with v := loadRegs s.config s.mem s.i.toNat s.v (x.val + 1) }) :=
  withinRange_of_fits (.inr h)

end Sys2Proof.Machine
end

