-- ==== Sys2Proof/Laws/PerInstr.lean ====
section
/-! SUPPORT. Statements made per instruction: the family `EncodedFamily` says that the word of an instruction carries, in its
bits 15..12, the family digit R105's table gives it. -/

namespace Sys2Proof.Laws.EncodedFamily

/-- The family digit of each instruction, R105's column "word". -/
def digit : Instr → BitVec 4
  | .clear => 0x0
  | .ret => 0x0
  | .call _ => 0x0
  | .jump _ => 0x1
  | .callSub _ => 0x2
  | .skipIfEq _ _ => 0x3
  | .skipIfNeq _ _ => 0x4
  | .skipIfRegEq _ _ => 0x5
  | .setConst _ _ => 0x6
  | .addConst _ _ => 0x7
  | .copy _ _ => 0x8
  | .or _ _ => 0x8
  | .and _ _ => 0x8
  | .xor _ _ => 0x8
  | .addReg _ _ => 0x8
  | .sub _ _ => 0x8
  | .shr _ _ => 0x8
  | .subN _ _ => 0x8
  | .shl _ _ => 0x8
  | .skipIfRegNeq _ _ => 0x9
  | .setIndex _ => 0xA
  | .jumpPlusV0 _ => 0xB
  | .random _ _ => 0xC
  | .draw _ _ _ => 0xD
  | .skipIfKey _ => 0xE
  | .skipIfNotKey _ => 0xE
  | .getDelay _ => 0xF
  | .waitKey _ => 0xF
  | .setDelay _ => 0xF
  | .setSound _ => 0xF
  | .memAdd _ => 0xF
  | .memFont _ => 0xF
  | .bcd _ => 0xF
  | .memStore _ => 0xF
  | .memLoad _ => 0xF

/-- Under either CLEAR_WORD, bits 15..12 of the instruction's word are its family digit. -/
def Statement (i : Instr) : Prop := ∀ cw, major (encode cw i) = digit i

theorem clear : Statement (.clear) := fun cw => by cases cw <;> decide
theorem ret : Statement (.ret) := fun _ => (by decide : major 0x00EE = 0x0)
theorem call (nnn : BitVec 12) : Statement (.call nnn) := fun _ => major_formNNN _ _
theorem jump (nnn : BitVec 12) : Statement (.jump nnn) := fun _ => major_formNNN _ _
theorem callSub (nnn : BitVec 12) : Statement (.callSub nnn) := fun _ => major_formNNN _ _
theorem skipIfEq (x : RegIdx) (kk : Byte) : Statement (.skipIfEq x kk) := fun _ => major_formXKK _ _ _
theorem skipIfNeq (x : RegIdx) (kk : Byte) : Statement (.skipIfNeq x kk) := fun _ => major_formXKK _ _ _
theorem skipIfRegEq (x : RegIdx) (y : RegIdx) : Statement (.skipIfRegEq x y) := fun _ => major_formXYN _ _ _ _
theorem setConst (x : RegIdx) (kk : Byte) : Statement (.setConst x kk) := fun _ => major_formXKK _ _ _
theorem addConst (x : RegIdx) (kk : Byte) : Statement (.addConst x kk) := fun _ => major_formXKK _ _ _
theorem copy (x : RegIdx) (y : RegIdx) : Statement (.copy x y) := fun _ => major_formXYN _ _ _ _
theorem or (x : RegIdx) (y : RegIdx) : Statement (.or x y) := fun _ => major_formXYN _ _ _ _
theorem and (x : RegIdx) (y : RegIdx) : Statement (.and x y) := fun _ => major_formXYN _ _ _ _
theorem xor (x : RegIdx) (y : RegIdx) : Statement (.xor x y) := fun _ => major_formXYN _ _ _ _
theorem addReg (x : RegIdx) (y : RegIdx) : Statement (.addReg x y) := fun _ => major_formXYN _ _ _ _
theorem sub (x : RegIdx) (y : RegIdx) : Statement (.sub x y) := fun _ => major_formXYN _ _ _ _
theorem shr (x : RegIdx) (y : RegIdx) : Statement (.shr x y) := fun _ => major_formXYN _ _ _ _
theorem subN (x : RegIdx) (y : RegIdx) : Statement (.subN x y) := fun _ => major_formXYN _ _ _ _
theorem shl (x : RegIdx) (y : RegIdx) : Statement (.shl x y) := fun _ => major_formXYN _ _ _ _
theorem skipIfRegNeq (x : RegIdx) (y : RegIdx) : Statement (.skipIfRegNeq x y) := fun _ => major_formXYN _ _ _ _
theorem setIndex (nnn : BitVec 12) : Statement (.setIndex nnn) := fun _ => major_formNNN _ _
theorem jumpPlusV0 (nnn : BitVec 12) : Statement (.jumpPlusV0 nnn) := fun _ => major_formNNN _ _
theorem random (x : RegIdx) (kk : Byte) : Statement (.random x kk) := fun _ => major_formXKK _ _ _
theorem draw (x : RegIdx) (y : RegIdx) (n : Fin 16) : Statement (.draw x y n) := fun _ => major_formXYN _ _ _ _
theorem skipIfKey (x : RegIdx) : Statement (.skipIfKey x) := fun _ => major_formXKK _ _ _
theorem skipIfNotKey (x : RegIdx) : Statement (.skipIfNotKey x) := fun _ => major_formXKK _ _ _
theorem getDelay (x : RegIdx) : Statement (.getDelay x) := fun _ => major_formXKK _ _ _
theorem waitKey (x : RegIdx) : Statement (.waitKey x) := fun _ => major_formXKK _ _ _
theorem setDelay (x : RegIdx) : Statement (.setDelay x) := fun _ => major_formXKK _ _ _
theorem setSound (x : RegIdx) : Statement (.setSound x) := fun _ => major_formXKK _ _ _
theorem memAdd (x : RegIdx) : Statement (.memAdd x) := fun _ => major_formXKK _ _ _
theorem memFont (x : RegIdx) : Statement (.memFont x) := fun _ => major_formXKK _ _ _
theorem bcd (x : RegIdx) : Statement (.bcd x) := fun _ => major_formXKK _ _ _
theorem memStore (x : RegIdx) : Statement (.memStore x) := fun _ => major_formXKK _ _ _
theorem memLoad (x : RegIdx) : Statement (.memLoad x) := fun _ => major_formXKK _ _ _

end Sys2Proof.Laws.EncodedFamily
end

