-- ==== Sys2Proof/Laws/Step.lean ====
section
/-! SUPPORT. What one transition can be: one lemma per kind of host command, and the cases of STEP. Later proofs cite these and do
not unfold the port. -/

namespace Sys2Proof.Machine

/-- One transition, by the script's first command (R20). -/
theorem step_of_pending {s : State} {c : Command} {rest : List Command} (h : s.pending = c :: rest) :
    step s = runCommand c { s with pending := rest } := by
  unfold step nextTransaction
  rw [h]

/-- One transition with an empty script: STEP with a free byte (assumption log entries 2 and 3). -/
theorem step_of_no_pending {s : State} (h : s.pending = []) :
    step s = cmdStep { s with rnd := Config.randomByte s.draws, draws := s.draws + 1 } := by
  unfold step nextTransaction
  rw [h]

/-- All STEP can do, first case: the fetch fails and nothing changes (R121). -/
theorem cmdStep_of_missing {s : State} (h : ramSize ≤ s.pc.toNat + 1) :
    cmdStep s = .next { s with
      response := .stepError (.addressOutOfRange .memory (max s.pc.toNat ramSize) .fetch) s.pc } := by
  unfold cmdStep
  rw [checkRange_of_exceeds (by omega) (by omega)]

/-- All STEP can do, second case: the fetched word is decoded and executed on the advanced PC (R120, R122, R123). -/
theorem cmdStep_of_fetched {s : State} (h : s.pc.toNat + 1 < ramSize) :
    cmdStep s = decodeAndExecute (fetchWord s) (advance s) := by
  unfold cmdStep
  rw [checkRange_of_fits (by omega)]

theorem decodeAndExecute_instr {s : State} {w : Word} {i : Instr} (h : decode s.config.clearWord w = .instr i) :
    decodeAndExecute w s = exec i s := by
  unfold decodeAndExecute
  rw [h]

theorem decodeAndExecute_unknown {s : State} {w u : Word} (h : decode s.config.clearWord w = .unknown u) :
    decodeAndExecute w s = execUnknown u s := by
  unfold decodeAndExecute
  rw [h]

/-- A run of several transitions goes on from the state the first one gives. -/
theorem run_succ_of_next {s t : State} (n : Nat) (h : step s = .next t) :
    Sys2Proof.core.run (n + 1) s = Sys2Proof.core.run n t := by
  have h' : Sys2Proof.core.step s = .next t := h
  simp only [Host.Core.run, h']

/-- Nothing changes from a state to itself. -/
theorem KeepsExcept.refl (parts : List Part) (s : State) : KeepsExcept parts s s := by
  simp [KeepsExcept]

/-- A response is no part of the Machine State. -/
theorem KeepsExcept.response (parts : List Part) (s : State) (r : Response) :
    KeepsExcept parts s { s with response := r } := by
  refine ⟨?_, ?_, ?_, ?_, ?_, ?_, ?_, ?_, ?_, ?_, rfl, rfl, rfl, rfl⟩ <;> exact .inr (by intros; rfl)

/-- Raising is the whole of R124: the response is the error, and nothing else changes. -/
theorem raises_of_eq {i : Instr} {s : State} {e : StepError} (h : exec i s = raise e s) : Raises i s e :=
  ⟨_, h, rfl, rfl, KeepsExcept.response _ _ _⟩

end Sys2Proof.Machine
end

