-- ==== Sys2Proof/Tests/Slice0.lean ====
section
/-! SUPPORT. Tests of the model: words written out from the spec's encodings (R92, R105), the ill-formed terms, one-step tests whose
expected results are the vectors of spec/95_test_vectors.md (the section or the vector is named at each test), and for every statement
with hypotheses a witness that meets them. -/

namespace Sys2Proof.Tests

open Sys2Proof Sys2Proof.Machine

/-! ### Helpers -/

/-- The test of a next state; a stop fails it. -/
def after (o : Result) (p : State → Bool) : Bool :=
  match o with
  | .next t => p t
  | .fault _ => false
  | .refused _ => false

/-- Set some general registers. -/
def regs (l : List (RegIdx × Byte)) (s : State) : State := l.foldl (fun t p => setV p.1 p.2 t) s

/-- The state of spec/95's conventions: after reset, the word at 0x200, and then some fields set. -/
def at200 (w : Nat) (f : State → State) : State := f (State.reset.withFetchWord 16 w)

/-- One STEP of the word at 0x200. -/
def one (w : Nat) (f : State → State) (p : State → Bool) : Bool := after (step (at200 w f)) p

/-- One host command on the reset state with some fields set. -/
def command (c : Command) (f : State → State) (p : State → Bool) : Bool :=
  after (step { f State.reset with pending := [c] }) p

/-- A configuration with a small screen, for the pixel tests. -/
def small (w h : Nat) : Config := { Config.default with screenW := w, screenH := h }

/-- A small-screen machine with the word at 0x200. -/
def smallAt (c : Config) (w : Nat) (f : State → State) : State := f ((State.resetWith c).withFetchWord 16 w)

/-! ### WellFormed refuses the words Clear and Return take first (R97) -/

theorem test_wellFormed_refuses_return_word : Instr.WellFormed .zero (.call 0x0EE) = false ∧
    Instr.WellFormed .e0 (.call 0x0EE) = false := by decide

theorem test_wellFormed_refuses_clear_word : Instr.WellFormed .zero (.call 0x000) = false ∧
    Instr.WellFormed .e0 (.call 0x0E0) = false := by decide

theorem test_wellFormed_accepts_the_other_clear_word : Instr.WellFormed .zero (.call 0x0E0) = true ∧
    Instr.WellFormed .e0 (.call 0x000) = true := by decide

theorem test_config_wf_refuses_an_empty_screen : (small 0 32).wf = false ∧ (small 64 0).wf = false ∧
    (small 1 1).wf = true := by decide

/-! ### Decode: every constructor, by a word written out bit by bit from R92's layouts -/

theorem test_decode_fixed : decode .zero 0b0000000000000000 = .instr .clear ∧
    decode .e0 0b0000000011100000 = .instr .clear ∧ decode .zero 0b0000000011101110 = .instr .ret := by decide

theorem test_decode_nnn : decode .zero 0b0000111111111111 = .instr (.call 0xFFF) ∧
    decode .zero 0b0001101010111100 = .instr (.jump 0xABC) ∧
    decode .zero 0b0010001100000001 = .instr (.callSub 0x301) ∧
    decode .zero 0b1010001011101010 = .instr (.setIndex 0x2EA) ∧
    decode .zero 0b1011010000000000 = .instr (.jumpPlusV0 0x400) := by decide

theorem test_decode_xkk : decode .zero 0b0011101001000010 = .instr (.skipIfEq 10 0x42) ∧
    decode .zero 0b0100001101000010 = .instr (.skipIfNeq 3 0x42) ∧
    decode .zero 0b0110010110100111 = .instr (.setConst 5 0xA7) ∧
    decode .zero 0b0111111100000011 = .instr (.addConst 15 0x03) ∧
    decode .zero 0b1100001100001111 = .instr (.random 3 0x0F) := by decide

theorem test_decode_xy0 : decode .zero 0b0101000100100000 = .instr (.skipIfRegEq 1 2) ∧
    decode .zero 0b1001101010110000 = .instr (.skipIfRegNeq 10 11) := by decide

theorem test_decode_bitOp : decode .zero 0b1000000100100000 = .instr (.copy 1 2) ∧
    decode .zero 0b1000000100100001 = .instr (.or 1 2) ∧ decode .zero 0b1000000100100010 = .instr (.and 1 2) ∧
    decode .zero 0b1000000100100011 = .instr (.xor 1 2) ∧ decode .zero 0b1000000100100100 = .instr (.addReg 1 2) ∧
    decode .zero 0b1000000100100101 = .instr (.sub 1 2) ∧ decode .zero 0b1000010001010110 = .instr (.shr 4 5) ∧
    decode .zero 0b1000000100100111 = .instr (.subN 1 2) ∧ decode .zero 0b1000000100101110 = .instr (.shl 1 2) := by
  decide

theorem test_decode_draw : decode .zero 0b1101000100100101 = .instr (.draw 1 2 5) := by decide

theorem test_decode_key : decode .zero 0b1110011110011110 = .instr (.skipIfKey 7) ∧
    decode .zero 0b1110011110100001 = .instr (.skipIfNotKey 7) := by decide

theorem test_decode_misc : decode .zero 0b1111000100000111 = .instr (.getDelay 1) ∧
    decode .zero 0b1111001100001010 = .instr (.waitKey 3) ∧ decode .zero 0b1111001000010101 = .instr (.setDelay 2) ∧
    decode .zero 0b1111001000011000 = .instr (.setSound 2) ∧ decode .zero 0b1111000100011110 = .instr (.memAdd 1) ∧
    decode .zero 0b1111001000101001 = .instr (.memFont 2) ∧ decode .zero 0b1111001100110011 = .instr (.bcd 3) ∧
    decode .zero 0b1111111101010101 = .instr (.memStore 15) ∧
    decode .zero 0b1111111101100101 = .instr (.memLoad 15) := by decide

/-- Spec/95 §2.1, the words that are Unknown. -/
theorem test_decode_unknown : decode .zero 0x5121 = .unknown 0x5121 ∧ decode .zero 0x800F = .unknown 0x800F ∧
    decode .e0 0x8008 = .unknown 0x8008 ∧ decode .zero 0x9AB1 = .unknown 0x9AB1 ∧
    decode .zero 0xE09F = .unknown 0xE09F ∧ decode .zero 0xF000 = .unknown 0xF000 ∧
    decode .zero 0xF030 = .unknown 0xF030 ∧ decode .e0 0xFFFF = .unknown 0xFFFF := by decide

theorem test_decodeBytes_is_big_endian : decodeBytes .zero [0x12, 0x34, 0x56] = .instr (.jump 0x234) [0x56] ∧
    decodeBytes .zero [0x12] = .truncated ∧ decodeBytes .zero [] = .truncated := by decide

theorem test_decodeTableWord : decodeTableWord 16 0xF065 = some (.memLoad 0) ∧
    decodeTableWord 16 0x0000 = some .clear ∧ decodeTableWord 16 0x8009 = none := by decide

/-- The reset memory holds no program: the first STEP from reset with nothing placed runs Clear (R247; spec/95 §2.8). -/
theorem test_step_from_reset_is_clear : after (step State.reset) (fun t => t.pc == 0x202 && t.response == .ok) = true := by
  decide

/-! ### One step of each instruction (spec/95 §1 and §2) -/

/-- §2.6: some pixels lit, VF = 07. -/
theorem test_clear : after (step (smallAt (small 4 2) 0x0000 fun s =>
      { setV 15 7 s with fb := [true, false, true, false, false, true, true, true] }))
    (fun t => t.fb == List.replicate 8 false && getV t 15 == 7 && t.pc == 0x202) = true := by decide

/-- §2.6: with CLEAR_WORD = 0x00E0 the word 0000 reports a deprecated call. -/
theorem test_clear_word_parameter :
    after (step (smallAt { small 4 2 with clearWord := .e0 } 0x0000 id))
      (fun t => t.response == .stepError (.deprecatedOpcode 0x0000 0x000) 0x200 && t.pc == 0x202) = true := by decide

/-- §2.3. -/
theorem test_ret : one 0x00EE (fun s => { s with sp := 2, stack := s.stack.set 1 0x3A0 })
    (fun t => t.pc == 0x3A0 && t.sp == 1 && t.stack[1] == 0x3A0 && t.response == .ok) = true := by decide

/-- §2.3: an empty stack. -/
theorem test_ret_underflow : one 0x00EE id
    (fun t => t.response == .stepError (.stackUnderflow 0) 0x200 && t.pc == 0x202 && t.sp == 0) = true := by decide

/-- W13. -/
theorem test_call : one 0x0123 id
    (fun t => t.response == .stepError (.deprecatedOpcode 0x0123 0x123) 0x200 && t.pc == 0x202) = true := by decide

/-- §2.3: an odd target is taken. -/
theorem test_jump : one 0x1201 id (fun t => t.pc == 0x201 && t.response == .ok) = true := by decide

/-- §2.3: the sixteenth nested call succeeds. -/
theorem test_callSub : one 0x2300 (fun s => { s with sp := 15 })
    (fun t => t.stack[15] == 0x202 && t.sp == 16 && t.pc == 0x300 && t.response == .ok) = true := by decide

/-- §2.3: the seventeenth does not. -/
theorem test_callSub_overflow : one 0x2300 (fun s => { s with sp := 16 })
    (fun t => t.response == .stepError (.stackOverflow 16) 0x200 && t.sp == 16 && t.pc == 0x202) = true := by decide

theorem test_skipIfEq : one 0x3342 (regs [(3, 0x42)]) (fun t => t.pc == 0x204) = true ∧
    one 0x3342 (regs [(3, 0x41)]) (fun t => t.pc == 0x202) = true := by decide

theorem test_skipIfNeq : one 0x4342 (regs [(3, 0x41)]) (fun t => t.pc == 0x204) = true ∧
    one 0x4342 (regs [(3, 0x42)]) (fun t => t.pc == 0x202) = true := by decide

theorem test_skipIfRegEq : one 0x5120 (regs [(1, 7), (2, 7)]) (fun t => t.pc == 0x204) = true ∧
    one 0x5120 (regs [(1, 7), (2, 8)]) (fun t => t.pc == 0x202) = true := by decide

theorem test_skipIfRegNeq : one 0x9120 (regs [(1, 7), (2, 8)]) (fun t => t.pc == 0x204) = true ∧
    one 0x9110 (regs [(1, 7)]) (fun t => t.pc == 0x202) = true := by decide

/-- §2.3: always V0, and no wrap at 12 bits. -/
theorem test_jumpPlusV0 : one 0xB400 (regs [(0, 1), (4, 0x80)]) (fun t => t.pc == 0x401) = true ∧
    one 0xBFFF (regs [(0, 0xFF)]) (fun t => t.pc == 0x10FE && t.response == .ok) = true := by decide

theorem test_setConst : one 0x65A7 id (fun t => getV t 5 == 0xA7 && t.pc == 0x202) = true := by decide

/-- §2.4: the carry is lost. -/
theorem test_addConst : one 0x7501 (regs [(5, 0xFF)]) (fun t => getV t 5 == 0 && getV t 15 == 0) = true ∧
    one 0x7F03 (regs [(15, 0xFE)]) (fun t => getV t 15 == 1) = true := by decide

theorem test_copy : one 0x8120 (regs [(2, 0x33)]) (fun t => getV t 1 == 0x33 && getV t 2 == 0x33) = true := by decide

theorem test_or : one 0x8121 (regs [(1, 0xF0), (2, 0x0F), (15, 0x55)])
    (fun t => getV t 1 == 0xFF && getV t 15 == 0x55) = true := by decide

theorem test_and : one 0x8122 (regs [(1, 0xF0), (2, 0x3C), (15, 0x55)])
    (fun t => getV t 1 == 0x30 && getV t 15 == 0x55) = true := by decide

theorem test_xor : one 0x8123 (regs [(1, 0xFF), (2, 0x0F), (15, 0x55)])
    (fun t => getV t 1 == 0xF0 && getV t 15 == 0x55) = true := by decide

theorem test_addReg : one 0x8124 (regs [(1, 0xFF), (2, 0xFF)]) (fun t => getV t 1 == 0xFE && getV t 15 == 1) = true ∧
    one 0x8124 (regs [(1, 0x7F), (2, 1)]) (fun t => getV t 1 == 0x80 && getV t 15 == 0) = true := by decide

/-- §2.4, x = F: the flag is written last; y = F: the old VF is the operand. -/
theorem test_addReg_on_VF : one 0x8F14 (regs [(15, 0xFF), (1, 1)]) (fun t => getV t 15 == 1) = true ∧
    one 0x81F5 (regs [(1, 5), (15, 3)]) (fun t => getV t 1 == 2 && getV t 15 == 1) = true := by decide

theorem test_sub : one 0x8125 (regs [(1, 0x10), (2, 0x20)]) (fun t => getV t 1 == 0xF0 && getV t 15 == 0) = true ∧
    one 0x8125 (regs [(1, 0x20), (2, 0x20)]) (fun t => getV t 1 == 0 && getV t 15 == 1) = true := by decide

theorem test_subN : one 0x8127 (regs [(1, 0x20), (2, 0x10)]) (fun t => getV t 1 == 0xF0 && getV t 15 == 0) = true ∧
    one 0x8127 (regs [(1, 0x42), (2, 0x42)]) (fun t => getV t 1 == 0 && getV t 15 == 1) = true := by decide

theorem test_shr : one 0x8456 (regs [(4, 2), (5, 0xFF)]) (fun t => getV t 4 == 1 && getV t 15 == 0) = true ∧
    one 0x8F06 (regs [(15, 2)]) (fun t => getV t 15 == 0) = true := by decide

theorem test_shl : one 0x840E (regs [(4, 0x81)]) (fun t => getV t 4 == 2 && getV t 15 == 1) = true ∧
    one 0x840E (regs [(4, 0x40)]) (fun t => getV t 4 == 0x80 && getV t 15 == 0) = true := by decide

/-- §2.4: rnd = AB. -/
theorem test_random : one 0xC30F (fun s => { s with pending := [.step 0xAB] })
    (fun t => getV t 3 == 0x0B && t.response == .ok) = true := by decide

/-- §2.4: kk = 00 gives 00 whatever the byte is; here the free byte is drawn. -/
theorem test_random_masked_to_zero : getV { State.reset with rnd := Config.randomByte 0 } 3 = 0 ∧
    ∀ s : State, exec (.random 3 0x00) s = .next { setV 3 0 s with response := .ok } := by
  refine ⟨by decide, fun s => ?_⟩
  simp [exec, execRandom, complete]

theorem test_setIndex : one 0xA2EA id (fun t => t.i == 0x2EA) = true := by decide

theorem test_memAdd : one 0xF11E (fun s => { regs [(1, 1), (15, 0x55)] s with i := 0xFFFF })
      (fun t => t.i == 0 && getV t 15 == 0x55) = true ∧
    one 0xF11E (fun s => { regs [(1, 1)] s with i := 0x0FFF }) (fun t => t.i == 0x1000 && t.response == .ok) = true := by
  decide

theorem test_memFont : one 0xF229 (regs [(2, 0x0A)]) (fun t => t.i == 0x32) = true ∧
    one 0xF229 (regs [(2, 0xFF)]) (fun t => t.i == 0x4FB) = true := by decide

/-- W8, and §2.5's last legal position. -/
theorem test_bcd : one 0xF333 (fun s => { regs [(3, 0xFF)] s with i := 0x300 })
      (fun t => t.byteAt 0x300 == 2 && t.byteAt 0x301 == 5 && t.byteAt 0x302 == 5 && t.i == 0x300) = true ∧
    one 0xF333 (fun s => { regs [(3, 0x7B)] s with i := 0xFFD })
      (fun t => t.byteAt 0xFFD == 1 && t.byteAt 0xFFE == 2 && t.byteAt 0xFFF == 3) = true := by decide

/-- §2.5: one byte too far, and nothing is written. -/
theorem test_bcd_out_of_range : one 0xF333 (fun s => { regs [(3, 0x7B)] s with i := 0xFFE })
    (fun t => t.response == .stepError (.addressOutOfRange .memory 0x1000 .execute) 0x200 &&
      t.byteAt 0xFFE == 0 && t.byteAt 0xFFF == 0) = true := by decide

/-- §2.5: I is kept; the font region is writable. -/
theorem test_memStore : one 0xF155 (fun s => { regs [(0, 0x11), (1, 0x22), (2, 0x33)] s with i := 0x300 })
      (fun t => t.byteAt 0x300 == 0x11 && t.byteAt 0x301 == 0x22 && t.byteAt 0x302 == 0 && t.i == 0x300) = true ∧
    one 0xF055 (fun s => { regs [(0, 0xAA)] s with i := 0x10 }) (fun t => t.byteAt 0x10 == 0xAA) = true := by decide

/-- §2.5: the two other modes of LS_I_MODE. -/
theorem test_memStore_modes :
    after (step (smallAt { small 1 1 with lsIMode := .plusXPlus1 } 0xF155 fun s => { s with i := 0x300 }))
      (fun t => t.i == 0x302) = true ∧
    after (step (smallAt { small 1 1 with lsIMode := .plusX } 0xF155 fun s => { s with i := 0x300 }))
      (fun t => t.i == 0x301) = true := by decide

/-- §2.5: M[300..302] = 02 05 04. -/
theorem test_memLoad : one 0xF265 (fun s => { s.storeBytes 0x300 [2, 5, 4, 9] with i := 0x300 })
    (fun t => getV t 0 == 2 && getV t 1 == 5 && getV t 2 == 4 && getV t 3 == 0 && t.i == 0x300) = true := by decide

/-- §2.5: the update of I runs only on success. -/
theorem test_memLoad_out_of_range :
    after (step (smallAt { small 1 1 with lsIMode := .plusXPlus1 } 0xF065 fun s => { s with i := 0xFFFF }))
      (fun t => t.i == 0xFFFF && t.response == .stepError (.addressOutOfRange .memory 0xFFFF .execute) 0x200) = true := by
  decide

/-- R181 and R182: rows 0 and 1 of glyph 0 (F0 90) from column 6 of row 1 of an 8 by 2 screen: columns 6, 7, 0, 1 of row 1, and
columns 6 and 1 of row 0, where pixel (6, 0) was lit. -/
theorem test_draw_wraps :
    after (step (smallAt (small 8 2) 0xD012 fun s =>
        { regs [(0, 14), (1, 3)] s with fb := fbSet 8 s.fb 6 0 true }))
      (fun t => t.fb == [false, true, false, false, false, false, false, false,
        true, true, false, false, false, false, true, true] && getV t 15 == 1) = true := by decide

/-- §2.6, SCREEN_W = 4, sprite byte 88: two bits of one row on the same pixel. -/
theorem test_draw_meets_itself :
    after (step (smallAt (small 4 2) 0xD001 fun s => { s.storeBytes 0x300 [0x88] with i := 0x300 }))
      (fun t => !pixel t 0 0 && getV t 15 == 1) = true := by decide

theorem test_skipIfKey : one 0xE09E (fun s => { regs [(0, 5)] s with key := s.key.set 5 true }) (fun t => t.pc == 0x204) = true ∧
    one 0xE09E (regs [(0, 5)]) (fun t => t.pc == 0x202) = true := by decide

theorem test_skipIfKey_no_such_key : one 0xE09E (regs [(0, 0x10)])
    (fun t => t.response == .stepError (.addressOutOfRange .keypad 0x10 .execute) 0x200 && t.pc == 0x202) = true := by decide

theorem test_skipIfNotKey : one 0xE0A1 (regs [(0, 5)]) (fun t => t.pc == 0x204) = true ∧
    one 0xE0A1 (regs [(0, 0xFF)])
      (fun t => t.response == .stepError (.addressOutOfRange .keypad 0xFF .execute) 0x200) = true := by decide

/-- §2.7 and W9. -/
theorem test_waitKey : one 0xF30A (fun s => { s with key := (s.key.set 3 true).set 9 true })
      (fun t => getV t 3 == 3 && t.pc == 0x202) = true ∧
    one 0xF30A (regs [(3, 0x44)]) (fun t => getV t 3 == 0x44 && t.pc == 0x200 && t.response == .ok) = true := by decide

theorem test_getDelay : one 0xF107 (fun s => { s with dt := 0x3C }) (fun t => getV t 1 == 0x3C && t.dt == 0x3C) = true := by
  decide

theorem test_setDelay : one 0xF215 (regs [(2, 0x3C)]) (fun t => t.dt == 0x3C && t.st == 0) = true := by decide

theorem test_setSound : one 0xF218 (regs [(2, 5)]) (fun t => t.st == 5 && t.dt == 0 && t.soundActive) = true ∧
    one 0xF218 (fun s => { s with st := 5 }) (fun t => t.st == 0 && !t.soundActive) = true := by decide

/-! ### The step transaction and the host commands (spec/95 §2.2, §2.7, §2.8) -/

/-- §2.2: the last full word fetches; one byte does not; an odd PC does. -/
theorem test_fetch_bounds :
    after (step ({ State.reset with pc := 0xFFE }.withFetchWord 16 0x120E)) (fun t => t.pc == 0x20E) = true ∧
    after (step { State.reset with pc := 0xFFF }) (fun t => t.pc == 0xFFF &&
      t.response == .stepError (.addressOutOfRange .memory 0x1000 .fetch) 0xFFF) = true ∧
    after (step { State.reset with pc := 0x10FE }) (fun t => t.pc == 0x10FE &&
      t.response == .stepError (.addressOutOfRange .memory 0x10FE .fetch) 0x10FE) = true ∧
    after (step ({ State.reset with pc := 0x201 }.withFetchWord 16 0x6A12))
      (fun t => getV t 10 == 0x12 && t.pc == 0x203) = true := by decide

/-- W12. -/
theorem test_unknown : one 0x5121 id
    (fun t => t.response == .stepError (.unknownOpcode 0x5121) 0x200 && t.pc == 0x202) = true := by decide

theorem test_tick : command .tick (fun s => { s with dt := 2, st := 1 })
      (fun t => t.dt == 1 && t.st == 0 && !t.soundActive && t.response == .ok) = true ∧
    command .tick id (fun t => t.dt == 0 && t.st == 0) = true := by decide

theorem test_key_commands : command (.keyDown 15) id (fun t => t.key[15] && !t.key[14]) = true ∧
    command (.keyUp 4) (fun s => { s with key := s.key.set 4 true }) (fun t => !t.key[4]) = true ∧
    command (.keyDown 16) id (fun t => t.response == .commandError (.keyIndexOutOfRange 16)) = true := by decide

/-- §2.8 and W2: the program counter and the registers stay. -/
theorem test_load : command (.load [0x12, 0x34, 0x56]) (fun s => { setV 1 9 s with pc := 0x234 })
      (fun t => t.byteAt 0x200 == 0x12 && t.byteAt 0x201 == 0x34 && t.byteAt 0x202 == 0x56 && t.pc == 0x234 &&
        getV t 1 == 9) = true ∧
    command (.load []) id (fun t => t.response == .commandError .emptyRom) = true := by decide

theorem test_reset : command .reset (fun s => { (setV 1 9 s).storeBytes 0x10 [0xAA, 0xBB] with pc := 0x300, dt := 3 })
    (fun t => t.byteAt 0x10 == 0x10 && t.byteAt 0x11 == 0xF0 && getV t 1 == 0 && t.pc == 0x200 && t.dt == 0) = true := by decide

/-- R217 and R218. -/
theorem test_reads :
    after (step { State.resetWith (small 1 1) with pending := [.readState], dt := 3 })
      (fun t => t.response == .machineState t.toMachineState && t.dt == 3 && t.pc == 0x200) = true ∧
    after (step { State.resetWith (small 2 1) with pending := [.readFb], fb := [true, false] })
      (fun t => t.response == .framebuffer 2 1 [true, false]) = true := by decide

/-- R47's table: glyphs 7 and F of the default font. -/
theorem test_font : (List.range 5).map (fun j => State.reset.byteAt (35 + j)) = [0xF0, 0x10, 0x20, 0x40, 0x40] ∧
    (List.range 5).map (fun j => State.reset.byteAt (75 + j)) = [0xF0, 0x80, 0xF0, 0x80, 0x80] ∧
    State.reset.byteAt 80 = 0 := by decide

/-- R201's numbers. -/
theorem test_error_codes : (StepError.unknownOpcode 0).code = 1 ∧ (StepError.deprecatedOpcode 0 0).code = 2 ∧
    (StepError.stackOverflow 16).code = 3 ∧ (StepError.stackUnderflow 0).code = 4 ∧
    (StepError.addressOutOfRange .memory 0 .fetch).code = 5 ∧ CommandError.emptyRom.code = 16 ∧
    (CommandError.romTooLarge 0).code = 17 ∧ (CommandError.keyIndexOutOfRange 16).code = 18 := by decide

/-! ### Witnesses: for each statement with hypotheses, states and operands that meet them, at the edges of their ranges -/

/-- A one-pixel machine that meets the invariant; its later fields are set by the witnesses. -/
def tiny : State := State.resetWith (small 1 1)

theorem witness_invariant : tiny.Inv ∧ State.reset.Inv ∧ State.Inv { tiny with sp := 16, i := 0xFFFF } :=
  ⟨⟨by decide, by decide, by decide, by decide⟩,
    ⟨by decide, by decide, by simp [State.reset, State.resetWith, MachineState.reset], by decide⟩,
    ⟨by decide, by decide, by decide, by decide⟩⟩

theorem witness_DecodeOfEncodeIsTheInstruction : Instr.WellFormed .zero (.call 0xFFF) = true ∧
    Instr.WellFormed .e0 (.draw 15 15 15) = true := by decide

theorem witness_EncodeOfDecodeIsTheWord : decode .e0 0x0000 = .instr (.call 0) ∧
    decode .zero 0xDFFF = .instr (.draw 15 15 15) := by decide

theorem witness_UnknownWordsAreExactlyTheUnlisted : decode .zero 0x5121 = .unknown 0x5121 := by decide

theorem witness_ClearReturnAndCallShareMajorZero : (0x0FFF : Word).toNat < 4096 ∧
    (0x0FFF : Word) ≠ ClearWord.zero.word ∧ (0x0FFF : Word) ≠ 0x00EE := by decide

/-- The last word of memory, with and without a command listed. -/
theorem witness_StepRunsTheDecodedInstruction :
    let s : State := { tiny with pc := 0xFFE }.withFetchWord 16 0x1234
    s.pc.toNat + 1 < ramSize ∧
      decode s.config.clearWord (s.byteAt s.pc.toNat ++ s.byteAt (s.pc.toNat + 1)) = .instr (.jump 0x234) ∧
      s.pending = [] ∧ { s with pending := [.step 7] }.pending = .step 7 :: [] := by decide

/-- The first PC whose second byte is missing, the first whose own byte is, and the last. -/
theorem witness_FailedFetchChangesNothing :
    { tiny with pc := 0xFFF, pending := [.step 0] }.pending = .step 0 :: [] ∧
      ramSize ≤ { tiny with pc := 0xFFF }.pc.toNat + 1 ∧ ¬ ramSize ≤ { tiny with pc := 0xFFF }.pc.toNat ∧
      ramSize ≤ { tiny with pc := 0x1000 }.pc.toNat ∧ ramSize ≤ { tiny with pc := 0xFFFF }.pc.toNat := by decide

theorem witness_UnknownWordOnlyAdvancesPc :
    let s : State := { tiny.withFetchWord 16 0x5121 with pending := [.step 0] }
    s.pending = .step 0 :: [] ∧ s.pc.toNat + 1 < ramSize ∧
      (0x5121 : Word) = s.byteAt s.pc.toNat ++ s.byteAt (s.pc.toNat + 1) ∧
      decode s.config.clearWord 0x5121 = .unknown 0x5121 := by decide

/-- Whether an instruction answers this step error. -/
def raised (i : Instr) (s : State) (e : StepError) : Bool :=
  after (exec i s) fun t => t.response == .stepError e (s.pc - 2)

/-- The step errors of the call, the stack and the keypad, at the first value that raises each. -/
theorem witness_StepErrorsByInstruction :
    raised (.call 0x123) tiny (.deprecatedOpcode 0x123 0x123) = true ∧
    raised (.callSub 0x300) { tiny with sp := 16 } (.stackOverflow 16) = true ∧
    raised .ret tiny (.stackUnderflow 0) = true ∧
    raised (.skipIfKey 0) (setV 0 16 tiny) (.addressOutOfRange .keypad 16 .execute) = true ∧
    raised (.skipIfNotKey 0) (setV 0 16 tiny) (.addressOutOfRange .keypad 16 .execute) = true := by decide

/-- The step errors of the memory instructions, at the first position that does not fit. -/
theorem witness_StepErrorsWriteNothing :
    raised (.draw 0 0 1) { tiny with i := 0x1000 } (.addressOutOfRange .memory 0x1000 .execute) = true ∧
    raised (.bcd 0) { tiny with i := 0xFFE } (.addressOutOfRange .memory 0x1000 .execute) = true ∧
    raised (.memStore 15) { tiny with i := 0xFF1 } (.addressOutOfRange .memory 0x1000 .execute) = true ∧
    raised (.memLoad 0) { tiny with i := 0xFFFF } (.addressOutOfRange .memory 0xFFFF .execute) = true := by decide

theorem witness_OnlyRandomReadsTheRandomByte : (∀ x kk, Instr.copy 0 1 ≠ .random x kk) ∧
    ∃ t, exec (.copy 0 1) { tiny with rnd := 7 } = .next t ∧ t.response = .ok :=
  ⟨fun _ _ => nofun, _, rfl, rfl⟩

theorem witness_ResetMeetsTheInvariant : Config.default.wf = true ∧ (small 1 1).wf = true := by decide

theorem witness_ConfigurationNeverChanges :
    ∃ t, step { tiny with pending := [.reset] } = .next t ∧ t.response = .ok := ⟨_, rfl, rfl⟩

theorem witness_CanonicalMemoriesThatReadAlikeAreEqual :
    Memory.wf Config.default [(0, 1), (0xFFF, 2)] = true ∧ Memory.wf Config.default [] = true ∧
      Memory.write Config.default (Memory.write Config.default [] 0 1) 0 0xF0 = [] := by decide

/-- A register that a load writes, and one past the last that it does not. -/
theorem witness_OnlyTheListedRegistersAreWritten :
    after (exec (.memLoad 3) tiny) (fun t => getV t 3 == 0x90 && getV t 4 == getV tiny 4) = true ∧
      (3 : RegIdx) ∈ writtenRegs (.memLoad 3) ∧ (4 : RegIdx) ∉ writtenRegs (.memLoad 3) := by decide

/-- Memory changes at the first and the last byte of each store. -/
theorem witness_OnlyBcdAndMemStoreWriteMemory :
    let s : State := { regs [(0, 0xFF), (15, 7)] tiny with i := 0x300 }
    after (exec (.bcd 0) s) (fun t => t.byteAt 0x300 != s.byteAt 0x300 && t.byteAt 0x302 != s.byteAt 0x302) = true ∧
      after (exec (.memStore 15) s) (fun t => t.byteAt 0x300 != s.byteAt 0x300 && t.byteAt 0x30F != s.byteAt 0x30F) = true := by
  decide

theorem witness_StackKeypadAndFramebufferHaveTheirOwnWriters :
    after (exec (.callSub 0x300) { tiny with sp := 15 }) (fun t => t.stack != tiny.stack && t.sp != 15) = true ∧
    after (exec .ret { tiny with sp := 1 }) (fun t => t.sp != 1) = true ∧
    after (exec .clear { tiny with fb := [true] }) (fun t => t.fb != [true]) = true ∧
    after (exec (.draw 0 0 2) tiny) (fun t => t.fb == [false] && getV t 15 == 1) = true ∧
    after (exec (.draw 0 0 1) { tiny with i := 5 }) (fun t => t.fb != [false]) = true := by decide

theorem witness_IndexAndTimersHaveTheirOwnWriters :
    let s : State := regs [(1, 5)] tiny
    after (exec (.setDelay 1) s) (fun t => t.dt != s.dt) = true ∧
    after (exec (.setSound 1) s) (fun t => t.st != s.st) = true ∧
    after (exec (.memAdd 1) s) (fun t => t.i != s.i) = true ∧
    after (exec (.memLoad 0) (State.resetWith { small 1 1 with lsIMode := .plusXPlus1 })) (fun t => t.i == 1) = true := by
  decide

/-- PC left, moved on, and moved back. -/
theorem witness_PcMovesBySkipRewindOrTransfer :
    after (exec (.copy 0 1) tiny) (fun t => t.pc == 0x200) = true ∧
    after (exec (.skipIfRegEq 0 1) tiny) (fun t => t.pc == 0x202) = true ∧
    after (exec (.waitKey 0) tiny) (fun t => t.pc == 0x1FE) = true := by decide

/-- The first and the last free entry, and the first full stack pointer. -/
theorem witness_CallSubPushesTheReturnAddress : { tiny with sp := 0 }.sp.toNat < stackDepth ∧
    { tiny with sp := 15 }.sp.toNat < stackDepth ∧ stackDepth ≤ { tiny with sp := 16 }.sp.toNat := by decide

theorem witness_ReturnPopsIntoPc : 0 < { tiny with sp := 1 }.sp.toNat ∧ { tiny with sp := 16 }.sp.toNat ≤ stackDepth ∧
    tiny.sp.toNat = 0 := by decide

theorem witness_ReturnBeyondTheStackStops : stackDepth < { tiny with sp := 17 }.sp.toNat ∧
    exec .ret { tiny with sp := 255 } = .fault (.stackEntryMissing 254) := ⟨by decide, rfl⟩

theorem witness_ReturnUndoesCallSub : ∃ t u : State, exec (.callSub 0x300) { tiny with sp := 15 } = .next t ∧
    t.response = .ok ∧ u.sp = t.sp ∧ u.stack = t.stack := ⟨_, _, rfl, rfl, rfl, rfl⟩

theorem witness_DeprecatedCallOnlyReports : (0x123 : BitVec 12).setWidth 16 ≠ ClearWord.zero.word ∧
    (0x123 : BitVec 12).setWidth 16 ≠ ClearWord.e0.word ∧ (0x123 : BitVec 12) ≠ 0x0EE := by decide

/-- The shared conditions of the three memory instructions, at the last position that fits and the first that does not. -/
theorem witness_memory_instructions_in_and_out_of_range :
    State.Inv { tiny with i := 0xFFD } ∧ { tiny with i := 0xFFD }.i.toNat + 2 < ramSize ∧
      ramSize ≤ { tiny with i := 0xFFE }.i.toNat + 2 ∧
      { tiny with i := 0xFF0 }.i.toNat + (15 : RegIdx).val < ramSize ∧
      ramSize ≤ { tiny with i := 0xFF1 }.i.toNat + (15 : RegIdx).val :=
  ⟨⟨by decide, by decide, by decide, by decide⟩, by decide, by decide, by decide, by decide⟩

/-- A store to the bytes the next fetch reads, up to the last byte of memory. -/
theorem witness_StoredBytesAreFetchedNext :
    let s : State := { regs [(0, 0x12), (1, 0x34)] tiny with i := 0xFFE, pc := 0xFFE }
    s.Inv ∧ 1 ≤ (1 : RegIdx).val ∧ s.i = s.pc ∧ s.pc.toNat + (1 : RegIdx).val < ramSize ∧
      after (exec (.memStore 1) s) (fun t => fetchWord t == 0x1234) = true :=
  ⟨⟨by decide, by decide, by decide, by decide⟩, by decide, by decide, by decide, by decide⟩

/-- Fitting by no rows and by range, and not fitting. -/
theorem witness_DrawXorsTheSpriteAndReportsErasure :
    State.Inv { tiny with i := 0xFF1 } ∧ { tiny with i := 0xFF1 }.i.toNat + (15 : Fin 16).val ≤ ramSize ∧
      (0 : Fin 16).val = 0 ∧ 0 < (15 : Fin 16).val ∧ ramSize < { tiny with i := 0xFF2 }.i.toNat + (15 : Fin 16).val :=
  ⟨⟨by decide, by decide, by decide, by decide⟩, by decide, by decide, by decide, by decide⟩

/-- One row of glyph 1 drawn on an 8 by 1 screen lights pixel (2, 0); the state after it is drawn on again. -/
theorem witness_DrawingTwiceRestoresTheScreen :
    ∃ s t : State, s.Inv ∧ exec (.draw 0 0 1) s = .next t ∧ t.response = .ok ∧
      t.config = s.config ∧ t.i = s.i ∧ (∀ a, t.byteAt a = s.byteAt a) ∧ getV t 0 = getV s 0 ∧
      pixel s 2 0 = false ∧ pixel t 2 0 = true :=
  ⟨{ State.resetWith (small 8 1) with i := 5 }, _, ⟨by decide, by decide, by decide, by decide⟩, rfl, rfl, rfl, rfl,
    fun _ => rfl, by decide, by decide, by decide⟩

theorem witness_SkipsOnKeys : (getV (setV 0 15 tiny) 0).toNat < nKeys ∧ nKeys ≤ (getV (setV 0 16 tiny) 0).toNat := by decide

theorem witness_WaitKeyTakesTheLowestKeyOrRewinds :
    let s : State := { tiny with key := tiny.key.set 15 true }
    (s.key[15] = true ∧ ∀ j (h : j < 15), s.key[j]'(Nat.lt_trans h (by decide)) = false) ∧ ∀ k (h : k < nKeys), tiny.key[k] = false := by decide

theorem witness_IdleWaitKeyLeavesTheMachineAsItWas :
    let s : State := { { tiny with pc := 0xFFE }.withFetchWord 16 0xF00A with pending := [.step 0] }
    s.pending = .step 0 :: [] ∧ s.pc.toNat + 1 < ramSize ∧
      decode s.config.clearWord (s.byteAt s.pc.toNat ++ s.byteAt (s.pc.toNat + 1)) = .instr (.waitKey 0) ∧
      ∀ k (h : k < nKeys), s.key[k] = false := by decide

/-- A listed command of each kind that a statement asks for, at the edges of its argument. -/
theorem witness_commands :
    { tiny with pending := [.reset] }.pending = .reset :: [] ∧
    { tiny with pending := [.tick] }.pending = .tick :: [] ∧
    { tiny with pending := List.replicate 2 .tick }.pending = List.replicate 2 .tick ++ [] ∧
    { tiny with pending := [.keyDown 15] }.pending = (if true then Command.keyDown 15 else Command.keyUp 15) :: [] ∧
    { tiny with pending := [.keyUp 16] }.pending = (if false then Command.keyDown 16 else Command.keyUp 16) :: [] ∧
    15 < nKeys ∧ nKeys ≤ 16 ∧
    { tiny with pending := [.readFb] }.pending = .readFb :: [] ∧
    { tiny with pending := [.readState] }.pending = .readState :: [] := by decide

theorem witness_TicksReachZeroAndStay :
    { tiny with pending := List.replicate 255 .tick, dt := 255, st := 255 }.pending = List.replicate 255 .tick ++ [] ∧
      255 ≤ 255 := ⟨(List.append_nil _).symm, Nat.le_refl _⟩

/-- The shortest, the longest and the first oversized ROM for either START_OFFSET, and the empty one. -/
theorem witness_LoadCopiesTheRomOrRefuses : tiny.Inv ∧
    { tiny with pending := [.load [0xAA]] }.pending = .load [0xAA] :: [] ∧ 0 < [(0xAA : Byte)].length ∧
    3584 ≤ ramSize - StartOffset.standard.word.toNat ∧ ramSize - StartOffset.standard.word.toNat < 3585 ∧
    2560 ≤ ramSize - StartOffset.legacy.word.toNat ∧ ramSize - StartOffset.legacy.word.toNat < 2561 ∧
    ([] : List Byte).length = 0 ∧ (List.replicate 3584 (0 : Byte)).length = 3584 :=
  ⟨witness_invariant.1, by decide, by decide, by decide, by decide, by decide, by decide, by decide, List.length_replicate⟩

end Sys2Proof.Tests
end

section
/-! PROOFS. The power-on state: what a machine whose Machine State is the reset one holds (R48), and that it meets the invariant. The
lemmas speak of any state with the reset Machine State, so they serve the RESET command as well as power-on. -/

namespace Sys2Proof.Machine

variable {c : Config} {s : State} {a : Nat}

/-! ### Memory with nothing listed -/

theorem Memory.read_nil : Memory.read c [] a = unlistedByte c a := rfl

/-- The reset contents of the font's addresses (R47, R48). -/
theorem unlistedByte_of_lt (h : a < fontBytes) : unlistedByte c a = c.font[a] := by
  rw [unlistedByte, Vector.getElem?_eq_getElem h, Option.getD_some]

/-- The reset contents above the font (R48). -/
theorem unlistedByte_of_le (h : fontBytes ≤ a) : unlistedByte c a = 0 := by
  rw [unlistedByte, Vector.getElem?_eq_none h, Option.getD_none]

/-- Every byte of a machine whose Machine State is the reset one is a reset byte. -/
theorem byteAt_of_reset (hm : s.toMachineState = MachineState.reset c) (hc : s.config = c) :
    s.byteAt a = unlistedByte c a := by
  rw [State.byteAt, hm, hc]
  exact Memory.read_nil

/-! ### The power-on values and the invariant -/

/-- A machine whose Machine State is the reset one has R48's values in every part. -/
theorem powerOn_of_reset (hm : s.toMachineState = MachineState.reset c) (hc : s.config = c) : PowerOn c s := by
  have font : ∀ a (h : a < fontBytes), s.byteAt a = c.font[a] := fun a h =>
    (byteAt_of_reset hm hc).trans (unlistedByte_of_lt h)
  have zeros : ∀ a, fontBytes ≤ a → a < ramSize → s.byteAt a = 0 := fun a h _ =>
    (byteAt_of_reset hm hc).trans (unlistedByte_of_le h)
  have regs : ∀ r, getV s r = 0 := fun r => by
    rw [getV, hm]
    exact Vector.getElem_replicate r.isLt
  refine ⟨font, zeros, regs, ?_⟩
  rw [hm]
  exact ⟨rfl, rfl, rfl, fun _ => Vector.getElem_replicate, rfl, rfl, fun _ => Vector.getElem_replicate,
    List.length_replicate, fun _ => List.eq_of_mem_replicate, hc⟩

/-- A machine whose Machine State is the reset one of its own configuration meets the invariant. -/
theorem inv_of_reset (hm : s.toMachineState = MachineState.reset s.config) (hwf : s.config.wf = true) : s.Inv := by
  rw [State.Inv, hm]
  have mem : Memory.wf s.config (MachineState.reset s.config).mem = true := rfl
  have fb : (MachineState.reset s.config).fb.length = s.config.screenW * s.config.screenH := List.length_replicate
  have sp : (MachineState.reset s.config).sp.toNat ≤ stackDepth := Nat.zero_le _
  exact ⟨hwf, mem, fb, sp⟩

/-- Settles O13: the power-on Machine State is the reset one of the configuration. -/
theorem resetMeetsTheInvariant : Obligations.ResetMeetsTheInvariant := by
  unfold Obligations.ResetMeetsTheInvariant
  exact fun c hwf => inv_of_reset (s := State.resetWith c) rfl hwf

/-- Settles O48: R48's values hold of the reset Machine State, and the defaults are R7's literals. -/
theorem resetStateHasThePowerOnValues : Obligations.ResetStateHasThePowerOnValues := by
  unfold Obligations.ResetStateHasThePowerOnValues
  have powerOn : ∀ c, PowerOn c (State.resetWith c) := fun _ => powerOn_of_reset rfl rfl
  exact ⟨powerOn, powerOn Config.default, rfl, rfl, rfl, rfl, rfl⟩

end Sys2Proof.Machine
end

section
/-! PROOFS. Canonical memory is extensional, RESET gives the power-on state, and a Return beyond the stack stops. -/

namespace Sys2Proof.Machine

variable {c : Config} {m m' : Memory} {lo lo' k : Nat} {b : Byte}

/-! ### Canonical memories -/

/-- A listed entry shows: a memory that reads like one whose first entry is at `k` cannot start beyond `k`. -/
theorem Memory.start_le_of_reads_alike (hm : Memory.wfFrom c lo ((k, b) :: m) = true)
    (hm' : Memory.wfFrom c lo' m' = true)
    (alike : ∀ a, a < ramSize → Memory.read c ((k, b) :: m) a = Memory.read c m' a) : lo' ≤ k := by
  obtain ⟨-, hk, hb, -⟩ := Memory.wfFrom_cons.mp hm
  by_contra hlt
  have listed : Memory.read c m' k = b := by rw [← alike k hk, Memory.read_cons, if_pos rfl]
  have unlisted : Memory.read c m' k = unlistedByte c k := Memory.read_of_lt hm' (by omega)
  exact hb (listed.symm.trans unlisted)

/-- The tails of two canonical memories with the same first address read alike. -/
theorem Memory.tails_read_alike {b' : Byte} (hm : Memory.wfFrom c (k + 1) m = true)
    (hm' : Memory.wfFrom c (k + 1) m' = true)
    (alike : ∀ a, a < ramSize → Memory.read c ((k, b) :: m) a = Memory.read c ((k, b') :: m') a) :
    ∀ a, a < ramSize → Memory.read c m a = Memory.read c m' a := by
  intro a ha
  by_cases hka : k = a
  · rw [Memory.read_of_lt hm (by omega), Memory.read_of_lt hm' (by omega)]
  · simpa only [Memory.read_cons, if_neg hka] using alike a ha

/-- Canonical memories from any two starts: the lists agree entry by entry. -/
theorem Memory.eq_of_reads_alike (hm : Memory.wfFrom c lo m = true) (hm' : Memory.wfFrom c lo' m' = true)
    (alike : ∀ a, a < ramSize → Memory.read c m a = Memory.read c m' a) : m = m' := by
  induction m generalizing lo lo' m' with
  | nil =>
    cases m' with
    | nil => rfl
    | cons e' rest' =>
      have := Memory.start_le_of_reads_alike (lo' := e'.1 + 1) hm' rfl fun a ha => (alike a ha).symm
      omega
  | cons e rest ih =>
    obtain ⟨k, b⟩ := e
    cases m' with
    | nil =>
      have := Memory.start_le_of_reads_alike (lo' := k + 1) hm rfl alike
      omega
    | cons e' rest' =>
      obtain ⟨k', b'⟩ := e'
      obtain ⟨-, hk, hb, hrest⟩ := Memory.wfFrom_cons.mp hm
      obtain ⟨-, hk', hb', hrest'⟩ := Memory.wfFrom_cons.mp hm'
      have le : k' ≤ k := Memory.start_le_of_reads_alike hm
        (Memory.wfFrom_cons.mpr ⟨le_rfl, hk', hb', hrest'⟩) alike
      have ge : k ≤ k' := Memory.start_le_of_reads_alike hm'
        (Memory.wfFrom_cons.mpr ⟨le_rfl, hk, hb, hrest⟩) fun a ha => (alike a ha).symm
      obtain rfl : k = k' := Nat.le_antisymm ge le
      obtain rfl : b = b' := by simpa only [Memory.read_cons, if_pos] using alike k hk
      rw [ih hrest hrest' (Memory.tails_read_alike hrest hrest' alike)]

/-- Settles O16: both memories are canonical from address 0 on. -/
theorem canonicalMemoriesThatReadAlikeAreEqual : Obligations.CanonicalMemoriesThatReadAlikeAreEqual := by
  unfold Obligations.CanonicalMemoriesThatReadAlikeAreEqual
  exact fun _ _ _ hm hm' alike => Memory.eq_of_reads_alike hm hm' alike

/-! ### RESET, and Return beyond the stack -/

/-- Settles O49: the Machine State that RESET leaves is the reset one of the state's own configuration. -/
theorem resetCommandReinitialisesEverything : Obligations.ResetCommandReinitialisesEverything := by
  unfold Obligations.ResetCommandReinitialisesEverything
  intro s rest hp
  exact ⟨_, step_of_pending hp, rfl, powerOn_of_reset rfl rfl, rfl⟩

/-- The third outcome of Return, beside `execRet_of_empty` and `execRet_of_pos`: there is no entry to pop. -/
theorem execRet_of_beyond {s : State} (h : stackDepth < s.sp.toNat) :
    exec .ret s = .fault (.stackEntryMissing (s.sp.toNat - 1)) :=
  pop_of_beyond (body := fun target t => complete (jumpTo target t)) h

/-- Settles O25: the pop finds no entry. -/
theorem returnBeyondTheStackStops : Obligations.ReturnBeyondTheStackStops := by
  unfold Obligations.ReturnBeyondTheStackStops
  exact fun _ hsp => execRet_of_beyond hsp

end Sys2Proof.Machine
end

section
/-! PROOFS. Which parts of the state each instruction can change (R32, R33, R37 to R43): one table, tied to `exec` by one frame lemma, from
which the statements on who writes what are read off. -/

namespace Sys2Proof.Machine

variable {s t u : State} {e : StepError} {parts parts' : List Part} {c : Config} {i : Instr} {x r : RegIdx} {b : Byte}
  {n : Nat}

/-! ### All that an operation with more than one outcome can answer as its next state -/

theorem withinRange_eq_next {body : Result} (h : withinRange n s body = .next t) :
    body = .next t ∨ ∃ e, raise e s = .next t := by
  obtain ⟨-, hr⟩ | ⟨-, -, hr⟩ := withinRange_cases n s body
  · exact .inl (hr ▸ h)
  · exact .inr ⟨_, hr ▸ h⟩

theorem keyAt_eq_next {k : Byte} {body : Bool → Result} (h : keyAt k s body = .next t) :
    (∃ down, body down = .next t) ∨ ∃ e, raise e s = .next t := by
  by_cases hk : k.toNat < nKeys
  · exact .inl ⟨_, keyAt_of_lt hk ▸ h⟩
  · exact .inr ⟨_, keyAt_of_missing (Nat.le_of_not_lt hk) ▸ h⟩

theorem execRet_eq_next (h : exec .ret s = .next t) :
    (∃ target, complete (jumpTo target { s with sp := s.sp - 1 }) = .next t) ∨ ∃ e, raise e s = .next t := by
  by_cases empty : s.sp = 0
  · exact .inr ⟨_, execRet_of_empty empty ▸ h⟩
  · have pos : 0 < s.sp.toNat := BitVec.toNat_pos_of_ne_zero empty
    by_cases depth : s.sp.toNat ≤ stackDepth
    · exact .inl ⟨_, execRet_of_pos pos depth ▸ h⟩
    · rw [execRet_of_beyond (Nat.lt_of_not_le depth)] at h
      contradiction

theorem execCallSub_eq_next {nnn : BitVec 12} (h : exec (.callSub nnn) s = .next t) :
    (∃ stack, complete (jumpTo (addressOf nnn) { s with stack := stack, sp := s.sp + 1 }) = .next t) ∨
      ∃ e, raise e s = .next t := by
  by_cases room : s.sp.toNat < stackDepth
  · exact .inl ⟨_, execCallSub_of_lt room ▸ h⟩
  · exact .inr ⟨_, execCallSub_of_full (Nat.le_of_not_lt room) ▸ h⟩

theorem execSkipIfKey_eq_next (h : exec (.skipIfKey x) s = .next t) :
    (∃ cond, complete (skipIf cond s) = .next t) ∨ ∃ e, raise e s = .next t :=
  keyAt_eq_next (body := fun down => complete (skipIf down s)) h

theorem execSkipIfNotKey_eq_next (h : exec (.skipIfNotKey x) s = .next t) :
    (∃ cond, complete (skipIf cond s) = .next t) ∨ ∃ e, raise e s = .next t :=
  (keyAt_eq_next (body := fun down => complete (skipIf (!down) s)) h).imp_left fun ⟨down, h⟩ => ⟨!down, h⟩

theorem execWaitKey_eq_next (h : exec (.waitKey x) s = .next t) :
    (∃ b, complete (setV x b s) = .next t) ∨ complete (rewind s) = .next t := by
  cases pressed : lowestPressed s with
  | some k => exact .inl ⟨_, execWaitKey_of_some pressed ▸ h⟩
  | none => exact .inr (execWaitKey_of_none pressed ▸ h)

/-! ### Frames -/

theorem KeepsExcept.mono (h : KeepsExcept parts s t) (hsub : parts ⊆ parts') : KeepsExcept parts' s t := by
  unfold KeepsExcept at *
  grind

theorem KeepsExcept.trans (hst : KeepsExcept parts s t) (htu : KeepsExcept parts t u) : KeepsExcept parts s u := by
  unfold KeepsExcept at *
  grind

theorem KeepsExcept.config (h : KeepsExcept parts s t) : t.config = s.config := by
  obtain ⟨-, -, -, -, -, -, -, -, -, -, hc, -⟩ := h
  exact hc

/-- Completing writes the response alone (R120). -/
theorem keepsExcept_of_complete (hu : KeepsExcept parts s u) (h : complete u = .next t) : KeepsExcept parts s t := by
  obtain rfl := complete_eq_next.mp h
  exact hu.trans (KeepsExcept.response ..)

/-- Raising writes the response alone (R124). -/
theorem keepsExcept_of_raise (h : raise e s = .next t) : KeepsExcept parts s t := by
  obtain rfl := raise_eq_next.mp h
  exact KeepsExcept.response ..

theorem keepsExcept_setV : KeepsExcept [.v] s (setV x b s) := by
  simp [KeepsExcept, State.byteAt]

theorem keepsExcept_setResultThenFlag {flag : Bool} : KeepsExcept [.v] s (setResultThenFlag x b flag s) :=
  keepsExcept_setV.trans keepsExcept_setV

theorem keepsExcept_jumpTo {w : Word} : KeepsExcept [.pc] s (jumpTo w s) := by
  simp [KeepsExcept, State.byteAt, getV]

theorem keepsExcept_rewind : KeepsExcept [.pc] s (rewind s) := keepsExcept_jumpTo

theorem keepsExcept_skipIf {cond : Bool} : KeepsExcept [.pc] s (skipIf cond s) := by
  simp [KeepsExcept, State.byteAt, getV]

theorem keepsExcept_setI {w : Word} : KeepsExcept [.i] s (setI w s) := by
  simp [KeepsExcept, State.byteAt, getV]

/-- I is the part UpdateI can change, and only when LS_I_MODE is not keep (R176). -/
def indexPart (c : Config) : List Part := if c.lsIMode = .keep then [] else [.i]

theorem mem_indexPart {p : Part} : p ∈ indexPart c ↔ p = .i ∧ c.lsIMode ≠ .keep := by
  unfold indexPart
  split <;> simp [*]

theorem keepsExcept_updateI : KeepsExcept (indexPart s.config) s (updateI x s) := by
  have index : .i ∈ indexPart s.config ∨ (updateI x s).i = s.i := by
    rw [mem_indexPart, updateI_i]
    cases s.config.lsIMode <;> simp
  simpa [KeepsExcept, State.byteAt, getV] using index

/-- A store or a load of one part, and then UpdateI. -/
theorem keepsExcept_cons_updateI {p : Part} (hu : KeepsExcept [p] s u) :
    KeepsExcept (p :: indexPart s.config) s (updateI x u) :=
  (hu.mono (by simp)).trans (keepsExcept_updateI.mono (by simp [hu.config]))

/-! ### The table and the frame of every instruction -/

/-- The parts an instruction can change: R32's and R33's columns, and the writers R37 to R43 name. -/
def writtenParts (c : Config) : Instr → List Part
  | .clear => [.fb]
  | .ret => [.pc, .sp]
  | .call _ => []
  | .callSub _ => [.pc, .sp, .stack]
  | .jump _ | .jumpPlusV0 _ => [.pc]
  | .skipIfEq _ _ | .skipIfNeq _ _ | .skipIfRegEq _ _ | .skipIfRegNeq _ _ | .skipIfKey _ | .skipIfNotKey _ => [.pc]
  | .setConst _ _ | .addConst _ _ | .copy _ _ | .or _ _ | .and _ _ | .xor _ _ | .random _ _ | .getDelay _ => [.v]
  | .addReg _ _ | .sub _ _ | .shr _ _ | .subN _ _ | .shl _ _ => [.v]
  | .setIndex _ | .memAdd _ | .memFont _ => [.i]
  | .draw _ _ _ => [.v, .fb]
  | .waitKey _ => [.v, .pc]
  | .setDelay _ => [.dt]
  | .setSound _ => [.st]
  | .bcd _ => [.mem]
  | .memStore _ => .mem :: indexPart c
  | .memLoad _ => .v :: indexPart c

/-- No instruction changes more than its row of `writtenParts`. -/
theorem exec_keepsExcept (h : exec i s = .next t) : KeepsExcept (writtenParts s.config i) s t := by
  cases i with
  | setConst | addConst | copy | or | and | xor | random | getDelay => exact keepsExcept_of_complete keepsExcept_setV h
  | addReg | sub | shr | subN | shl => exact keepsExcept_of_complete keepsExcept_setResultThenFlag h
  | setIndex | memAdd | memFont => exact keepsExcept_of_complete keepsExcept_setI h
  | jump | jumpPlusV0 => exact keepsExcept_of_complete keepsExcept_jumpTo h
  | skipIfEq | skipIfNeq | skipIfRegEq | skipIfRegNeq => exact keepsExcept_of_complete keepsExcept_skipIf h
  | call => exact keepsExcept_of_raise h
  | clear | setDelay | setSound =>
    refine keepsExcept_of_complete ?_ h
    simp [KeepsExcept, writtenParts, State.byteAt, getV]
  | skipIfKey =>
    obtain ⟨_, h⟩ | ⟨_, h⟩ := execSkipIfKey_eq_next h
    · exact keepsExcept_of_complete keepsExcept_skipIf h
    · exact keepsExcept_of_raise h
  | skipIfNotKey =>
    obtain ⟨_, h⟩ | ⟨_, h⟩ := execSkipIfNotKey_eq_next h
    · exact keepsExcept_of_complete keepsExcept_skipIf h
    · exact keepsExcept_of_raise h
  | waitKey =>
    obtain ⟨_, h⟩ | h := execWaitKey_eq_next h
    · exact keepsExcept_of_complete (keepsExcept_setV.mono (by simp [writtenParts])) h
    · exact keepsExcept_of_complete (keepsExcept_rewind.mono (by simp [writtenParts])) h
  | ret =>
    obtain ⟨_, h⟩ | ⟨_, h⟩ := execRet_eq_next h
    · refine keepsExcept_of_complete ?_ h
      simp [KeepsExcept, writtenParts, State.byteAt, getV]
    · exact keepsExcept_of_raise h
  | callSub =>
    obtain ⟨_, h⟩ | ⟨_, h⟩ := execCallSub_eq_next h
    · refine keepsExcept_of_complete ?_ h
      simp [KeepsExcept, writtenParts, State.byteAt, getV]
    · exact keepsExcept_of_raise h
  | draw | bcd =>
    obtain h | ⟨_, h⟩ := withinRange_eq_next h
    · refine keepsExcept_of_complete ?_ h
      simp [KeepsExcept, writtenParts, State.byteAt, getV, setFlag]
    · exact keepsExcept_of_raise h
  | memStore | memLoad =>
    obtain h | ⟨_, h⟩ := withinRange_eq_next h
    · refine keepsExcept_of_complete (keepsExcept_cons_updateI ?_) h
      simp [KeepsExcept, State.byteAt, getV]
    · exact keepsExcept_of_raise h

/-! ### The table read by part -/

theorem stack_mem_writtenParts : .stack ∈ writtenParts c i ↔ ∃ nnn, i = .callSub nnn := by
  cases i <;> simp [writtenParts, mem_indexPart]

theorem sp_mem_writtenParts : .sp ∈ writtenParts c i ↔ i = .ret ∨ ∃ nnn, i = .callSub nnn := by
  cases i <;> simp [writtenParts, mem_indexPart]

theorem key_notMem_writtenParts : .key ∉ writtenParts c i := by
  cases i <;> simp [writtenParts, mem_indexPart]

theorem fb_mem_writtenParts : .fb ∈ writtenParts c i ↔ i = .clear ∨ ∃ x y n, i = .draw x y n := by
  cases i <;> simp [writtenParts, mem_indexPart]

theorem dt_mem_writtenParts : .dt ∈ writtenParts c i ↔ ∃ x, i = .setDelay x := by
  cases i <;> simp [writtenParts, mem_indexPart]

theorem st_mem_writtenParts : .st ∈ writtenParts c i ↔ ∃ x, i = .setSound x := by
  cases i <;> simp [writtenParts, mem_indexPart]

theorem i_mem_writtenParts : .i ∈ writtenParts c i ↔
    (∃ nnn, i = .setIndex nnn) ∨ (∃ x, i = .memAdd x) ∨ (∃ x, i = .memFont x) ∨
      (c.lsIMode ≠ .keep ∧ ∃ x, i = .memStore x ∨ i = .memLoad x) := by
  cases i <;> simp [writtenParts, mem_indexPart]

/-- Settles O19: the frame of every instruction, read by part. -/
theorem stackKeypadAndFramebufferHaveTheirOwnWriters : Obligations.StackKeypadAndFramebufferHaveTheirOwnWriters := by
  unfold Obligations.StackKeypadAndFramebufferHaveTheirOwnWriters
  intro i s t h
  obtain ⟨-, -, -, -, sp, stack, -, -, key, fb, -⟩ := exec_keepsExcept h
  exact ⟨key.resolve_left key_notMem_writtenParts,
    fun changed => stack_mem_writtenParts.mp (stack.resolve_right changed),
    fun changed => sp_mem_writtenParts.mp (sp.resolve_right changed),
    fun changed => fb_mem_writtenParts.mp (fb.resolve_right changed)⟩

/-- Settles O20: the frame of every instruction, read by part. -/
theorem indexAndTimersHaveTheirOwnWriters : Obligations.IndexAndTimersHaveTheirOwnWriters := by
  unfold Obligations.IndexAndTimersHaveTheirOwnWriters
  intro i s t h
  obtain ⟨-, -, index, -, -, -, dt, st, -⟩ := exec_keepsExcept h
  exact ⟨fun changed => dt_mem_writtenParts.mp (dt.resolve_right changed),
    fun changed => st_mem_writtenParts.mp (st.resolve_right changed),
    fun changed => i_mem_writtenParts.mp (index.resolve_right changed)⟩

/-! ### Registers -/

theorem getV_of_complete (h : complete u = .next t) (hu : getV u r = b) : getV t r = b := by
  obtain rfl := complete_eq_next.mp h
  exact hu

theorem getV_of_raise (h : raise e s = .next t) : getV t r = getV s r := by
  obtain rfl := raise_eq_next.mp h
  rfl

theorem getV_of_v_notMem (h : KeepsExcept parts s t) (hv : .v ∉ parts) : getV t r = getV s r := by
  obtain ⟨-, v, -⟩ := h
  exact v.resolve_left hv r

theorem mem_writtenRegs_memLoad : r ∈ writtenRegs (.memLoad x) ↔ r.val < x.val + 1 := by
  simp [writtenRegs]

theorem getV_updateI : getV (updateI x s) r = getV s r := getV_congr (updateI_v ..) r

/-- Settles O17: an instruction that writes registers writes those of R32; the others keep all of them by their frame. -/
theorem onlyTheListedRegistersAreWritten : Obligations.OnlyTheListedRegistersAreWritten := by
  unfold Obligations.OnlyTheListedRegistersAreWritten
  intro i s t h r hr
  cases i with
  | setConst | addConst | copy | or | and | xor | random | getDelay =>
    exact getV_of_complete h (by rw [getV_setV, if_neg (List.ne_of_not_mem_cons hr)])
  | addReg | sub | shr | subN | shl =>
    obtain ⟨hx, hf⟩ : r ≠ _ ∧ r ≠ vF := by simpa [writtenRegs] using hr
    exact getV_of_complete h (by rw [getV_setResultThenFlag, if_neg hf, if_neg hx])
  | draw =>
    obtain h | ⟨_, h⟩ := withinRange_eq_next h
    · exact getV_of_complete h (by rw [getV_setFlag, if_neg (List.ne_of_not_mem_cons hr)]; rfl)
    · exact getV_of_raise h
  | waitKey =>
    obtain ⟨_, h⟩ | h := execWaitKey_eq_next h
    · exact getV_of_complete h (by rw [getV_setV, if_neg (List.ne_of_not_mem_cons hr)])
    · exact getV_of_complete h rfl
  | memLoad x =>
    rw [mem_writtenRegs_memLoad] at hr
    obtain h | ⟨_, h⟩ := withinRange_eq_next h
    · exact getV_of_complete h (getV_updateI.trans ((getElem_loadRegs ..).trans (if_neg hr)))
    · exact getV_of_raise h
  | _ => exact getV_of_v_notMem (exec_keepsExcept h) (by simp [writtenParts, mem_indexPart])

end Sys2Proof.Machine
end

section
/-! PROOFS. What every transition keeps: the configuration (R46), and the invariant, from which the machine always goes on (R127). -/

namespace Sys2Proof.Machine

variable {s t u : State} {c : Command} {i : Instr} {x : RegIdx} {e : StepError} {body : Result}

/-- All STEP can do: report a failed fetch, or run an instruction or raise on the advanced PC. -/
theorem cmdStep_cases (s : State) : (∃ r, cmdStep s = .next { s with response := r }) ∨
    (∃ i, cmdStep s = exec i (advance s)) ∨ ∃ e, cmdStep s = raise e (advance s) := by
  by_cases fits : s.pc.toNat + 1 < ramSize
  · rw [cmdStep_of_fetched fits]
    cases hd : decode (advance s).config.clearWord (fetchWord s) with
    | instr i => exact .inr (.inl ⟨i, decodeAndExecute_instr hd⟩)
    | unknown w => exact .inr (.inr ⟨.unknownOpcode w, decodeAndExecute_unknown hd⟩)
  · exact .inl ⟨_, cmdStep_of_missing (Nat.le_of_not_lt fits)⟩

/-! ### The configuration -/

theorem cmdStep_config (h : cmdStep s = .next t) : t.config = s.config := by
  obtain ⟨r, hr⟩ | ⟨i, hr⟩ | ⟨e, hr⟩ := cmdStep_cases s
  · cases hr.symm.trans h
    rfl
  · exact (exec_keepsExcept (s := advance s) (hr ▸ h)).config
  · exact (keepsExcept_of_raise (parts := []) (s := advance s) (hr ▸ h)).config

theorem cmdKey_config {down : Bool} {k : Nat} (h : cmdKey down k s = .next t) : t.config = s.config := by
  unfold cmdKey at h
  split at h <;> cases h <;> rfl

theorem cmdLoad_config {rom : List Byte} (h : cmdLoad rom s = .next t) : t.config = s.config := by
  unfold cmdLoad at h
  split at h
  · cases h; rfl
  · split at h <;> cases h <;> rfl

theorem runCommand_config (h : runCommand c s = .next t) : t.config = s.config := by
  cases c with
  | step rnd => exact cmdStep_config (s := { s with rnd := rnd }) h
  | keyDown | keyUp => exact cmdKey_config h
  | load => exact cmdLoad_config h
  | tick | reset | readFb | readState => cases h; rfl

/-- Settles O15: by the next command of the script, or STEP when there is none. -/
theorem configurationNeverChanges : Obligations.ConfigurationNeverChanges := by
  unfold Obligations.ConfigurationNeverChanges
  intro s t h
  cases hp : s.pending with
  | nil =>
    rw [step_of_no_pending hp] at h
    exact (cmdStep_config h).trans rfl
  | cons c rest =>
    rw [step_of_pending hp] at h
    exact (runCommand_config h).trans rfl

/-! ### The invariant: the shared operations -/

/-- A next state, and one that meets the invariant. -/
def GoesOnWithInv (r : Result) : Prop := ∃ t, r = .next t ∧ t.Inv

theorem goesOnWithInv_complete (hu : u.Inv) : GoesOnWithInv (complete u) := ⟨_, rfl, hu⟩

theorem goesOnWithInv_raise (hs : s.Inv) : GoesOnWithInv (raise e s) := ⟨_, rfl, hs⟩

theorem goesOnWithInv_withinRange {n : Nat} (hs : s.Inv) (hbody : GoesOnWithInv body) :
    GoesOnWithInv (withinRange n s body) := by
  obtain ⟨-, hr⟩ | ⟨-, -, hr⟩ := withinRange_cases n s body
  · rwa [hr]
  · rw [hr]
    exact goesOnWithInv_raise hs

theorem inv_skipIf {cond : Bool} (hs : s.Inv) : (skipIf cond s).Inv := skipIf_eq cond s ▸ hs

theorem inv_updateI (hs : s.Inv) : (updateI x s).Inv := by
  unfold updateI
  split <;> exact hs

theorem inv_storeBytes {a : Nat} {bs : List Byte} (hs : s.Inv) : (s.storeBytes a bs).Inv := by
  obtain ⟨hwf, hmem, hfb, hsp⟩ := hs
  exact ⟨hwf, Memory.wf_writeBytes bs hmem, hfb, hsp⟩

/-! ### The invariant: instructions and commands -/

theorem goesOnWithInv_ret (hs : s.Inv) : GoesOnWithInv (exec .ret s) := by
  obtain ⟨hwf, hmem, hfb, hsp⟩ := id hs
  by_cases empty : s.sp = 0
  · exact execRet_of_empty empty ▸ goesOnWithInv_raise hs
  · have pos : 0 < s.sp.toNat := BitVec.toNat_pos_of_ne_zero empty
    have popped : (s.sp - 1).toNat ≤ stackDepth := by bv_omega
    rw [execRet_of_pos pos hsp]
    exact goesOnWithInv_complete ⟨hwf, hmem, hfb, popped⟩

theorem goesOnWithInv_callSub {nnn : BitVec 12} (hs : s.Inv) : GoesOnWithInv (exec (.callSub nnn) s) := by
  obtain ⟨hwf, hmem, hfb, -⟩ := id hs
  by_cases room : s.sp.toNat < stackDepth
  · have pushed : (s.sp + 1).toNat ≤ stackDepth := by bv_omega
    rw [execCallSub_of_lt room]
    exact goesOnWithInv_complete ⟨hwf, hmem, hfb, pushed⟩
  · exact execCallSub_of_full (Nat.le_of_not_lt room) ▸ goesOnWithInv_raise hs

theorem goesOnWithInv_exec (hs : s.Inv) : GoesOnWithInv (exec i s) := by
  cases i with
  | setConst | addConst | copy | or | and | xor | addReg | sub | shr | subN | shl | random | getDelay
  | setIndex | memAdd | memFont | jump | jumpPlusV0 | setDelay | setSound => exact ⟨_, rfl, hs⟩
  | call => exact goesOnWithInv_raise hs
  | skipIfEq | skipIfNeq | skipIfRegEq | skipIfRegNeq => exact goesOnWithInv_complete (inv_skipIf hs)
  | skipIfKey x =>
    by_cases hk : (getV s x).toNat < nKeys
    · exact execSkipIfKey_of_lt hk ▸ goesOnWithInv_complete (inv_skipIf hs)
    · exact execSkipIfKey_of_missing (Nat.le_of_not_lt hk) ▸ goesOnWithInv_raise hs
  | skipIfNotKey x =>
    by_cases hk : (getV s x).toNat < nKeys
    · exact execSkipIfNotKey_of_lt hk ▸ goesOnWithInv_complete (inv_skipIf hs)
    · exact execSkipIfNotKey_of_missing (Nat.le_of_not_lt hk) ▸ goesOnWithInv_raise hs
  | waitKey =>
    cases pressed : lowestPressed s with
    | some k => exact execWaitKey_of_some pressed ▸ ⟨_, rfl, hs⟩
    | none => exact execWaitKey_of_none pressed ▸ ⟨_, rfl, hs⟩
  | ret => exact goesOnWithInv_ret hs
  | callSub => exact goesOnWithInv_callSub hs
  | clear =>
    obtain ⟨hwf, hmem, -, hsp⟩ := hs
    exact goesOnWithInv_complete ⟨hwf, hmem, List.length_replicate, hsp⟩
  | draw =>
    obtain ⟨hwf, hmem, hfb, hsp⟩ := id hs
    have size ps : (drawPixels s.config.screenW s.fb ps).1.length = _ := (length_drawPixels ..).trans hfb
    exact goesOnWithInv_withinRange hs (goesOnWithInv_complete ⟨hwf, hmem, size _, hsp⟩)
  | bcd => exact goesOnWithInv_withinRange hs (goesOnWithInv_complete (inv_storeBytes hs))
  | memStore => exact goesOnWithInv_withinRange hs (goesOnWithInv_complete (inv_updateI (inv_storeBytes hs)))
  | memLoad => exact goesOnWithInv_withinRange hs (goesOnWithInv_complete (inv_updateI hs))

theorem goesOnWithInv_cmdStep (hs : s.Inv) : GoesOnWithInv (cmdStep s) := by
  obtain ⟨r, hr⟩ | ⟨i, hr⟩ | ⟨e, hr⟩ := cmdStep_cases s
  · exact ⟨_, hr, hs⟩
  · exact hr ▸ goesOnWithInv_exec hs
  · exact hr ▸ goesOnWithInv_raise hs

theorem goesOnWithInv_cmdKey {down : Bool} {k : Nat} (hs : s.Inv) : GoesOnWithInv (cmdKey down k s) := by
  unfold cmdKey
  split <;> exact ⟨_, rfl, hs⟩

theorem goesOnWithInv_cmdLoad {rom : List Byte} (hs : s.Inv) : GoesOnWithInv (cmdLoad rom s) := by
  unfold cmdLoad
  split_ifs
  · exact ⟨_, rfl, hs⟩
  · exact ⟨_, rfl, hs⟩
  · exact goesOnWithInv_complete (inv_storeBytes hs)

theorem goesOnWithInv_runCommand (hs : s.Inv) : GoesOnWithInv (runCommand c s) := by
  cases c with
  | step => exact goesOnWithInv_cmdStep hs
  | keyDown | keyUp => exact goesOnWithInv_cmdKey hs
  | load => exact goesOnWithInv_cmdLoad hs
  | reset =>
    obtain ⟨hwf, -⟩ := hs
    exact ⟨_, rfl, inv_of_reset rfl hwf⟩
  | tick | readFb | readState => exact ⟨_, rfl, hs⟩

/-- Settles O14: by the next command of the script, or STEP when there is none; neither taking a command from the script nor drawing
a byte touches what the invariant speaks of. -/
theorem everyTransitionGoesOnAndKeepsTheInvariant : Obligations.EveryTransitionGoesOnAndKeepsTheInvariant := by
  unfold Obligations.EveryTransitionGoesOnAndKeepsTheInvariant
  intro s hs
  cases hp : s.pending with
  | nil => exact step_of_no_pending hp ▸ goesOnWithInv_cmdStep hs
  | cons c rest => exact step_of_pending hp ▸ goesOnWithInv_runCommand hs

end Sys2Proof.Machine
end

section
/-! PROOFS. What the two stores, Bcd and MemStore, do to memory (R61, R173, R174), and that the next fetch reads it (R74, R250). -/

namespace Sys2Proof.Machine

variable {s t u : State} {a b n : Nat} {bs : List Byte} {c : Config} {i : Instr} {x r : RegIdx}

/-! ### The bytes a store leaves and the bytes it writes -/

theorem byteAt_updateI : (updateI x s).byteAt a = s.byteAt a := byteAt_congr (updateI_mem ..) (updateI_config ..) a

theorem keepsMemoryOutside_storeBytes (hs : s.Inv) (fits : a + bs.length ≤ ramSize) :
    KeepsMemoryOutside a bs.length s (s.storeBytes a bs) := by
  obtain ⟨-, hmem, -⟩ := hs
  intro b hb
  rw [byteAt_storeBytes s bs hmem fits, if_neg (by omega)]

/-- A store of V0..Vx puts each of them at its own address (R174). -/
theorem byteAt_storeBytes_storedRegs (hs : s.Inv) (fits : a + (x.val + 1) ≤ ramSize) (hr : r.val ≤ x.val) :
    (s.storeBytes a (storedRegs s x)).byteAt (a + r.val) = getV s r := by
  obtain ⟨-, hmem, -⟩ := hs
  have len := length_storedRegs s x
  rw [byteAt_storeBytes s _ hmem (by omega), if_pos (by omega), Nat.add_sub_cancel_left, getD_storedRegs s x r hr]

/-! ### The frame of memory -/

theorem KeepsMemoryOutside.mem_of_changed (h : KeepsMemoryOutside a n s t) (changed : t.byteAt b ≠ s.byteAt b) :
    a ≤ b ∧ b < a + n := by
  by_contra outside
  exact changed (h b (by omega))

/-- A guarded store that raises writes nothing, and one that completes keeps what its body keeps. -/
theorem keepsMemoryOutside_of_withinRange (hn : 0 < n)
    (hu : s.i.toNat + n ≤ ramSize → KeepsMemoryOutside s.i.toNat n s u)
    (h : withinRange n s (complete u) = .next t) : KeepsMemoryOutside s.i.toNat n s t := by
  obtain ⟨fits, hr⟩ | ⟨-, -, hr⟩ := withinRange_cases n s (complete u)
  · obtain rfl := complete_eq_next.mp (hr ▸ h)
    exact hu (fits.resolve_left hn.ne')
  · obtain rfl := raise_eq_next.mp (hr ▸ h)
    exact fun _ _ => rfl

theorem execBcd_keepsMemoryOutside (hs : s.Inv) (h : exec (.bcd x) s = .next t) :
    KeepsMemoryOutside s.i.toNat 3 s t :=
  keepsMemoryOutside_of_withinRange (by omega)
    (keepsMemoryOutside_storeBytes (bs := bcdDigits (getV s x)) hs) h

theorem execMemStore_keepsMemoryOutside (hs : s.Inv) (h : exec (.memStore x) s = .next t) :
    KeepsMemoryOutside s.i.toNat (x.val + 1) s t := by
  refine keepsMemoryOutside_of_withinRange (by omega) (fun fits b hb => ?_) h
  rw [← length_storedRegs s x] at fits hb
  rw [byteAt_updateI, keepsMemoryOutside_storeBytes hs fits b hb]

theorem mem_mem_writtenParts : .mem ∈ writtenParts c i ↔ (∃ x, i = .bcd x) ∨ ∃ x, i = .memStore x := by
  cases i <;> simp [writtenParts, mem_indexPart]

/-- Settles O18: by its frame an instruction that changes memory is Bcd or MemStore, and each keeps what lies outside its own bytes. -/
theorem onlyBcdAndMemStoreWriteMemory : Obligations.OnlyBcdAndMemStoreWriteMemory := by
  unfold Obligations.OnlyBcdAndMemStoreWriteMemory
  intro i s t a hs h changed
  obtain ⟨mem, -⟩ := exec_keepsExcept h
  have writer := mem_mem_writtenParts.mp (mem.resolve_right fun kept => changed (kept a))
  obtain ⟨x, rfl⟩ | ⟨x, rfl⟩ := writer
  · exact .inl ⟨⟨x, rfl⟩, (execBcd_keepsMemoryOutside hs h).mem_of_changed changed⟩
  · exact .inr ⟨x, rfl, (execMemStore_keepsMemoryOutside hs h).mem_of_changed changed⟩

/-! ### A store the next fetch reads -/

theorem fetchWord_of_storedRegs (hs : s.Inv) (fits : s.pc.toNat + (x.val + 1) ≤ ramSize) (hx : 1 ≤ x.val) :
    fetchWord (updateI x (s.storeBytes s.pc.toNat (storedRegs s x))) = getV s 0 ++ getV s 1 := by
  have hi := byteAt_storeBytes_storedRegs (r := 0) hs fits (Nat.zero_le _)
  have lo := byteAt_storeBytes_storedRegs (r := 1) hs fits hx
  rw [fetchWord, updateI_pc, storeBytes_pc, byteAt_updateI, byteAt_updateI]
  exact congrArg₂ wordOfBytes hi lo

/-- Settles O39: V0 and V1 are stored at the two addresses the next fetch reads, and UpdateI touches neither memory nor PC. -/
theorem storedBytesAreFetchedNext : Obligations.StoredBytesAreFetchedNext := by
  unfold Obligations.StoredBytesAreFetchedNext
  intro x s hs hx hpc fits
  have runs := execMemStore_of_fits (hpc ▸ fits)
  rw [hpc] at runs
  exact ⟨_, runs, updateI_pc .., fetchWord_of_storedRegs hs fits hx⟩

end Sys2Proof.Machine
end

section
/-! PROOFS. The decoder and the encoder are inverse to each other (R95, R97, R105, R107), and what the decoder makes of the words R97 and
R98 single out. -/

namespace Sys2Proof

variable {cw : ClearWord} {w u : Word} {i : Instr} {m n : BitVec 4} {kk : Byte} {nnn : BitVec 12}

/-! ### The words of family 0 -/

theorem decode_clearWord : decode cw cw.word = .instr .clear := if_pos rfl

theorem decode_returnWord : decode cw 0x00EE = .instr .ret := by cases cw <;> rfl

theorem decodeFamily_of_major_zero (hm : major w = 0x0#4) : decodeFamily w = .instr (.call (fieldNNN w)) := by
  simp only [decodeFamily, hm]

/-- The words of family 0 that Clear and Return do not take are the deprecated Call's (R97). -/
theorem decode_of_major_zero (hm : major w = 0x0#4) (hclear : w ≠ cw.word) (hret : w ≠ 0x00EE) :
    decode cw w = .instr (.call (fieldNNN w)) := by
  rw [decode, if_neg hclear, if_neg hret, decodeFamily_of_major_zero hm]

/-- Well-formedness of the deprecated Call: its word is neither Clear's nor Return's (R97). -/
theorem wellFormed_call_iff :
    (Instr.call nnn).WellFormed cw = true ↔ formNNN 0x0#4 nnn ≠ cw.word ∧ formNNN 0x0#4 nnn ≠ 0x00EE := by
  simp only [Instr.WellFormed, formNNN_zero, Bool.and_eq_true, bne_iff_ne]

/-! ### Decoding an encoding -/

/-- Each instruction's word carries its family and its fields; `major` tells the decoder's branch, and the fields of a built word are
those it was built from. -/
theorem decode_encode (hwf : i.WellFormed cw = true) : decode cw (encode cw i) = .instr i := by
  cases i with
  | clear => exact decode_clearWord
  | ret => exact decode_returnWord
  | call nnn =>
    obtain ⟨hclear, hret⟩ := wellFormed_call_iff.mp hwf
    have read := decode_of_major_zero (major_formNNN ..) hclear hret
    rwa [fieldNNN_formNNN] at read
  | jump | callSub | setIndex | jumpPlusV0 | skipIfEq | skipIfNeq | setConst | addConst | random
  | skipIfRegEq | skipIfRegNeq | draw => simp [encode, decode_of_major_ne_zero, decodeFamily]
  | copy | or | and | xor | addReg | sub | shr | subN | shl =>
    simp [encode, decode_of_major_ne_zero, decodeFamily, decodeBitOp]
  | skipIfKey | skipIfNotKey => simp [encode, decode_of_major_ne_zero, decodeFamily, decodeKey]
  | getDelay | waitKey | setDelay | setSound | memAdd | memFont | bcd | memStore | memLoad =>
    simp [encode, decode_of_major_ne_zero, decodeFamily, decodeMisc]

/-- Settles O1: a word of a family other than 0 goes to its family, which reads back each field of its format. -/
theorem decodeOfEncodeIsTheInstruction : Obligations.DecodeOfEncodeIsTheInstruction := by
  unfold Obligations.DecodeOfEncodeIsTheInstruction
  exact fun _ _ hwf => decode_encode hwf

/-! ### Encoding what was decoded -/

theorem formNNN_eq (hm : major w = m) : formNNN m (fieldNNN w) = w := hm ▸ formNNN_of_fields w

theorem formXKK_eq (hm : major w = m) (hkk : fieldKK w = kk) : formXKK m (fieldX w) kk = w :=
  hm ▸ hkk ▸ formXKK_of_fields w

theorem formXYN_eq (hm : major w = m) (hn : fieldN w = n) : formXYN m (fieldX w) (fieldY w) n = w :=
  hm ▸ hn ▸ formXYN_of_fields w

theorem encode_of_decodeBitOp (hm : major w = 0x8) (h : decodeBitOp w = .instr i) :
    encode cw i = w ∧ i.WellFormed cw = true := by
  unfold decodeBitOp at h
  split at h <;> cases h <;> exact ⟨formXYN_eq hm ‹_›, rfl⟩

theorem encode_of_decodeKey (hm : major w = 0xE) (h : decodeKey w = .instr i) :
    encode cw i = w ∧ i.WellFormed cw = true := by
  unfold decodeKey at h
  split at h <;> cases h <;> exact ⟨formXKK_eq hm ‹_›, rfl⟩

theorem encode_of_decodeMisc (hm : major w = 0xF) (h : decodeMisc w = .instr i) :
    encode cw i = w ∧ i.WellFormed cw = true := by
  unfold decodeMisc at h
  split at h <;> cases h <;> exact ⟨formXKK_eq hm ‹_›, rfl⟩

theorem encode_of_decodeFamily (hclear : w ≠ cw.word) (hret : w ≠ 0x00EE) (h : decodeFamily w = .instr i) :
    encode cw i = w ∧ i.WellFormed cw = true := by
  unfold decodeFamily at h
  split at h
  case h_1 hm =>
    cases h
    have hw := formNNN_eq hm
    exact ⟨hw, wellFormed_call_iff.mpr (hw.symm ▸ ⟨hclear, hret⟩)⟩
  case h_2 hm | h_3 hm | h_11 hm | h_12 hm =>
    cases h
    exact ⟨formNNN_eq hm, rfl⟩
  case h_4 hm | h_5 hm | h_7 hm | h_8 hm | h_13 hm =>
    cases h
    exact ⟨formXKK_eq hm rfl, rfl⟩
  case h_6 hm | h_10 hm =>
    split at h <;> cases h
    exact ⟨formXYN_eq hm ‹_›, rfl⟩
  case h_14 hm =>
    cases h
    exact ⟨formXYN_eq hm rfl, rfl⟩
  case h_9 hm => exact encode_of_decodeBitOp hm h
  case h_15 hm => exact encode_of_decodeKey hm h
  case h_16 =>
    have hm : major w = 0xF := major_eq_last _ (by simp_all [List.range_succ, ← BitVec.toNat_inj])
    exact encode_of_decodeMisc hm h

/-- The encoder undoes the decoder: on the two words Clear and Return take first, and on every family after them (R97). -/
theorem encode_of_decode (h : decode cw w = .instr i) : encode cw i = w ∧ i.WellFormed cw = true := by
  unfold decode at h
  split_ifs at h with hclear hret
  · cases h
    exact ⟨hclear.symm, rfl⟩
  · cases h
    exact ⟨hret.symm, rfl⟩
  · exact encode_of_decodeFamily hclear hret h

/-- Settles O2: a family's instruction holds every field of its word. -/
theorem encodeOfDecodeIsTheWord : Obligations.EncodeOfDecodeIsTheWord := by
  unfold Obligations.EncodeOfDecodeIsTheWord
  exact fun _ _ _ h => encode_of_decode h

/-! ### The Unknown words -/

/-- The words R98 lists, by family digit, low nibble and low byte. -/
def Unlisted (w : Word) : Prop :=
  ((w.toNat / 4096 = 5 ∨ w.toNat / 4096 = 9) ∧ w.toNat % 16 ≠ 0) ∨
    (w.toNat / 4096 = 8 ∧ w.toNat % 16 ∈ [8, 9, 10, 11, 12, 13, 15]) ∨
    (w.toNat / 4096 = 14 ∧ w.toNat % 256 ∉ [0x9E, 0xA1]) ∨
    (w.toNat / 4096 = 15 ∧ w.toNat % 256 ∉ [0x07, 0x0A, 0x15, 0x18, 0x1E, 0x29, 0x33, 0x55, 0x65])

/-- The nine low nibbles of the BitOp family that have a row, and the seven that have none. -/
theorem toNat_unlisted_bitOp (n : BitVec 4) :
    n.toNat ∈ [8, 9, 10, 11, 12, 13, 15] ↔ n ∉ [0x0, 0x1, 0x2, 0x3, 0x4, 0x5, 0x6, 0x7, 0xE] := by
  revert n; decide

theorem decodeBitOp_eq_unknown : decodeBitOp w = .unknown u ↔
    w.toNat % 16 ∈ [8, 9, 10, 11, 12, 13, 15] ∧ w = u := by
  rw [← toNat_fieldN, toNat_unlisted_bitOp]
  unfold decodeBitOp
  split <;> simp_all

theorem decodeKey_eq_unknown : decodeKey w = .unknown u ↔ w.toNat % 256 ∉ [0x9E, 0xA1] ∧ w = u := by
  rw [← toNat_fieldKK]
  unfold decodeKey
  split <;> simp_all [← BitVec.toNat_inj]

theorem decodeMisc_eq_unknown : decodeMisc w = .unknown u ↔
    w.toNat % 256 ∉ [0x07, 0x0A, 0x15, 0x18, 0x1E, 0x29, 0x33, 0x55, 0x65] ∧ w = u := by
  rw [← toNat_fieldKK]
  unfold decodeMisc
  split <;> simp_all [← BitVec.toNat_inj]

theorem decodeFamily_eq_unknown : decodeFamily w = .unknown u ↔ Unlisted w ∧ w = u := by
  rw [Unlisted, ← toNat_major]
  unfold decodeFamily
  split
  case h_6 hm | h_10 hm =>
    rw [← toNat_fieldN, hm]
    split <;> simp_all [← BitVec.toNat_inj]
  case h_9 hm => simp [hm, decodeBitOp_eq_unknown]
  case h_15 hm => simp [hm, decodeKey_eq_unknown]
  case h_16 =>
    have hm : major w = 0xF := major_eq_last _ (by simp_all [List.range_succ, ← BitVec.toNat_inj])
    simp [hm, decodeMisc_eq_unknown]
  case h_1 hm | h_2 hm | h_3 hm | h_4 hm | h_5 hm | h_7 hm | h_8 hm | h_11 hm | h_12 hm | h_13 hm | h_14 hm =>
    simp [hm]

/-- Neither Clear's nor Return's word is listed: `CLEAR_WORD` and 0x00EE play no part in what is Unknown. -/
theorem decode_eq_unknown : decode cw w = .unknown u ↔ Unlisted w ∧ w = u := by
  rw [← decodeFamily_eq_unknown]
  by_cases hm : major w = 0x0#4
  · unfold decode
    split_ifs <;> simp [decodeFamily_of_major_zero hm]
  · rw [decode_of_major_ne_zero hm]

/-- Settles O3: the families answer Unknown on the words R98 lists, and with the word itself. -/
theorem unknownWordsAreExactlyTheUnlisted : Obligations.UnknownWordsAreExactlyTheUnlisted := by
  unfold Obligations.UnknownWordsAreExactlyTheUnlisted
  intro cw w
  refine ⟨⟨fun ⟨u, h⟩ => ?_, fun h => ⟨w, decode_eq_unknown.mpr ⟨h, rfl⟩⟩⟩, fun u h => ?_⟩
  · obtain ⟨hw, -⟩ := decode_eq_unknown.mp h
    exact hw
  · obtain ⟨-, hu⟩ := decode_eq_unknown.mp h
    exact hu.symm

/-! ### Words at fixed operands and in family 0 -/

theorem fieldNNN_eq_ofNat (w : Word) : fieldNNN w = BitVec.ofNat 12 w.toNat :=
  BitVec.eq_of_toNat_eq (by rw [toNat_fieldNNN, BitVec.toNat_ofNat])

theorem major_of_lt (h : w.toNat < 4096) : major w = 0x0#4 :=
  BitVec.eq_of_toNat_eq ((toNat_major w).trans (Nat.div_eq_of_lt h))

/-- Settles O4: Clear's and Return's words are tested first, and the rest of family 0 goes to Call. -/
theorem clearReturnAndCallShareMajorZero : Obligations.ClearReturnAndCallShareMajorZero := by
  unfold Obligations.ClearReturnAndCallShareMajorZero
  refine ⟨fun cw => ⟨decode_clearWord, decode_returnWord⟩, by decide, by decide, fun cw w hw hclear hret => ?_⟩
  rw [decode_of_major_zero (major_of_lt hw) hclear hret, fieldNNN_eq_ofNat]

/-- Settles O5: eleven closed facts for each CLEAR_WORD. -/
theorem writtenOutWordsDecode : Obligations.WrittenOutWordsDecode := by
  unfold Obligations.WrittenOutWordsDecode
  intro cw
  cases cw <;> decide

end Sys2Proof
end

section
/-! PROOFS. The step transaction (R120 to R128): what STEP does with the word it fetches, what an error leaves and reports, where an
instruction leaves PC, and which fields of the host port a transition reads. -/

namespace Sys2Proof.Machine

variable {s t u : State} {i : Instr} {x : RegIdx} {w : Word} {e : StepError} {c : Config} {cond : Bool} {n : Nat} {k r : Byte}
  {q : Response} {body body' : Result}

/-! ### Fetch and decode -/

/-- The fetched word is big-endian (R63). -/
theorem toNat_fetchWord (s : State) :
    (fetchWord s).toNat = (s.byteAt s.pc.toNat).toNat * 256 + (s.byteAt (s.pc.toNat + 1)).toNat := by
  have lo : (s.byteAt (s.pc.toNat + 1)).toNat < 2 ^ 8 := BitVec.isLt _
  unfold fetchWord wordOfBytes
  rw [BitVec.toNat_append, ← Nat.shiftLeft_add_eq_or_of_lt lo, Nat.shiftLeft_eq]

/-- With PC + 1 missing, the lowest missing address is PC or PC + 1 (R121). -/
theorem max_ramSize_of_missing {a : Nat} (missing : ramSize ≤ a + 1) :
    max a ramSize = if ramSize ≤ a then a else a + 1 := by
  split <;> omega

theorem cmdStep_of_instr (fits : s.pc.toNat + 1 < ramSize) (hd : decode s.config.clearWord (fetchWord s) = .instr i) :
    cmdStep s = exec i (advance s) := by
  rw [cmdStep_of_fetched fits]
  exact decodeAndExecute_instr hd

theorem cmdStep_of_unknown (fits : s.pc.toNat + 1 < ramSize) (hd : decode s.config.clearWord (fetchWord s) = .unknown w) :
    cmdStep s = raise (.unknownOpcode w) (advance s) := by
  rw [cmdStep_of_fetched fits]
  exact decodeAndExecute_unknown hd

/-- Settles O6: STEP on the state with the command taken, or with the free byte drawn. -/
theorem stepRunsTheDecodedInstruction : Obligations.StepRunsTheDecodedInstruction := by
  unfold Obligations.StepRunsTheDecodedInstruction
  intro s i fits hd
  refine ⟨fun rnd rest hp => ?_, fun hp => ?_⟩
  · rw [step_of_pending hp]
    exact cmdStep_of_instr (s := { s with pending := rest, rnd := rnd }) fits hd
  · rw [step_of_no_pending hp]
    exact cmdStep_of_instr (s := { s with rnd := Config.randomByte s.draws, draws := s.draws + 1 }) fits hd

/-- Settles O7: STEP's first case, with the address it reports written by cases. -/
theorem failedFetchChangesNothing : Obligations.FailedFetchChangesNothing := by
  unfold Obligations.FailedFetchChangesNothing
  intro s
  refine ⟨toNat_fetchWord s, fun rnd rest hp missing => ?_⟩
  have failed := cmdStep_of_missing (s := { s with pending := rest, rnd := rnd }) missing
  rw [max_ramSize_of_missing missing] at failed
  exact ⟨_, (step_of_pending hp).trans failed, rfl, rfl, rfl, rfl⟩

/-- Settles O8: the raise on the advanced PC reports the PC before it. -/
theorem unknownWordOnlyAdvancesPc : Obligations.UnknownWordOnlyAdvancesPc := by
  unfold Obligations.UnknownWordOnlyAdvancesPc
  refine ⟨by decide, fun s rnd rest w hp fits hw hd => ?_⟩
  have raised := cmdStep_of_unknown (s := { s with pending := rest, rnd := rnd }) fits (hw ▸ hd)
  have fetchedAt : s.pc + 2 - 2 = s.pc := BitVec.add_sub_cancel ..
  refine ⟨_, (step_of_pending hp).trans raised, ?_, rfl, rfl, rfl⟩
  simp only [advance_pc, fetchedAt, hw]

/-! ### WaitKey with every key up -/

/-- The rewind undoes the fetch's advance, at every PC (R128). -/
theorem rewind_advance (s : State) : rewind (advance s) = s := by
  have pc : s.pc + 2 - 2 = s.pc := BitVec.add_sub_cancel ..
  unfold rewind advance
  simp only [pc]

theorem cmdStep_of_idleWaitKey (fits : s.pc.toNat + 1 < ramSize)
    (hd : decode s.config.clearWord (fetchWord s) = .instr (.waitKey x)) (up : ∀ k (h : k < nKeys), s.key[k] = false) :
    cmdStep s = complete s := calc
  cmdStep s = exec (.waitKey x) (advance s) := cmdStep_of_instr fits hd
  _ = complete (rewind (advance s)) := execWaitKey_of_none (lowestPressed_eq_none.mpr up)
  _ = complete s := by rw [rewind_advance]

/-- Settles O46: STEP on the state with the command taken completes with that state. -/
theorem idleWaitKeyLeavesTheMachineAsItWas : Obligations.IdleWaitKeyLeavesTheMachineAsItWas := by
  unfold Obligations.IdleWaitKeyLeavesTheMachineAsItWas
  intro s rnd rest x hp fits hd up
  have idle := cmdStep_of_idleWaitKey (s := { s with pending := rest, rnd := rnd }) fits hd up
  exact ⟨_, (step_of_pending hp).trans idle, rfl, rfl, rfl⟩

/-! ### Errors -/

theorem response_of_complete (h : complete u = .next t) : t.response = .ok := by
  obtain rfl := complete_eq_next.mp h
  rfl

/-- An instruction that goes on completes with OK, or its whole effect is to raise (R124). -/
theorem exec_ok_or_raises (h : exec i s = .next t) : t.response = .ok ∨ ∃ e, raise e s = .next t := by
  cases i with
  | call => exact .inr ⟨_, h⟩
  | ret => exact (execRet_eq_next h).imp_left fun ⟨_, done⟩ => response_of_complete done
  | callSub => exact (execCallSub_eq_next h).imp_left fun ⟨_, done⟩ => response_of_complete done
  | skipIfKey => exact (execSkipIfKey_eq_next h).imp_left fun ⟨_, done⟩ => response_of_complete done
  | skipIfNotKey => exact (execSkipIfNotKey_eq_next h).imp_left fun ⟨_, done⟩ => response_of_complete done
  | draw | bcd | memStore | memLoad => exact (withinRange_eq_next h).imp_left response_of_complete
  | waitKey =>
    obtain ⟨_, done⟩ | done := execWaitKey_eq_next h
    · exact .inl (response_of_complete done)
    · exact .inl (response_of_complete done)
  | _ => exact .inl (response_of_complete h)

/-- Settles O9: an answer with a step error is not OK, so it is a raise. -/
theorem stepErrorsWriteNothing : Obligations.StepErrorsWriteNothing := by
  unfold Obligations.StepErrorsWriteNothing
  intro i s t e p h error
  obtain ok | ⟨e', raised⟩ := exec_ok_or_raises h
  · rw [ok] at error
    contradiction
  · obtain rfl := raise_eq_next.mp raised
    cases error
    exact ⟨rfl, rfl, KeepsExcept.response ..⟩

/-! ### PC -/

theorem pc_of_complete_skipIf (h : complete (skipIf cond s) = .next t) : t.pc = s.pc ∨ t.pc = s.pc + 2 := by
  obtain rfl := complete_eq_next.mp h
  cases cond
  · exact .inl rfl
  · exact .inr rfl

theorem pc_of_raise (h : raise e s = .next t) : t.pc = s.pc := by
  obtain rfl := raise_eq_next.mp h
  rfl

/-- The six conditional skips (R137 to R140, R191, R192). -/
def IsSkip (i : Instr) : Prop :=
  ∃ x y kk, i = .skipIfEq x kk ∨ i = .skipIfNeq x kk ∨ i = .skipIfRegEq x y ∨
    i = .skipIfRegNeq x y ∨ i = .skipIfKey x ∨ i = .skipIfNotKey x

theorem pc_mem_writtenParts : .pc ∈ writtenParts c i ↔
    (∃ nnn, i = .jump nnn ∨ i = .callSub nnn ∨ i = .jumpPlusV0 nnn) ∨ i = .ret ∨ IsSkip i ∨ ∃ x, i = .waitKey x := by
  cases i <;> simp [writtenParts, mem_indexPart, IsSkip]

theorem exec_eq_next_of_isSkip (skip : IsSkip i) (h : exec i s = .next t) :
    (∃ cond, complete (skipIf cond s) = .next t) ∨ ∃ e, raise e s = .next t := by
  obtain ⟨x, y, kk, rfl | rfl | rfl | rfl | rfl | rfl⟩ := skip
  · exact .inl ⟨_, h⟩
  · exact .inl ⟨_, h⟩
  · exact .inl ⟨_, h⟩
  · exact .inl ⟨_, h⟩
  · exact execSkipIfKey_eq_next h
  · exact execSkipIfNotKey_eq_next h

theorem pc_of_isSkip (skip : IsSkip i) (h : exec i s = .next t) : t.pc = s.pc ∨ t.pc = s.pc + 2 := by
  obtain ⟨_, done⟩ | ⟨_, raised⟩ := exec_eq_next_of_isSkip skip h
  · exact pc_of_complete_skipIf done
  · exact .inl (pc_of_raise raised)

theorem pc_of_waitKey (h : exec (.waitKey x) s = .next t) : t.pc = s.pc ∨ t.pc = s.pc - 2 := by
  obtain ⟨_, done⟩ | done := execWaitKey_eq_next h
  · obtain rfl := complete_eq_next.mp done
    exact .inl rfl
  · obtain rfl := complete_eq_next.mp done
    exact .inr rfl

/-- Settles O21: the frame of every instruction, read at PC; what is left is the skips and WaitKey. -/
theorem pcMovesBySkipRewindOrTransfer : Obligations.PcMovesBySkipRewindOrTransfer := by
  unfold Obligations.PcMovesBySkipRewindOrTransfer
  intro i s t h transfers notRet
  obtain ⟨-, -, -, written | kept, -⟩ := exec_keepsExcept h
  · obtain ⟨nnn, transfer⟩ | ret | skip | ⟨x, rfl⟩ := pc_mem_writtenParts.mp written
    · exact absurd transfer (by simp [transfers nnn])
    · exact absurd ret notRet
    · exact (pc_of_isSkip skip h).imp_right fun skipped => .inl ⟨skipped, skip⟩
    · exact (pc_of_waitKey h).imp_right fun rewound => .inr ⟨rewound, x, rfl⟩
  · exact .inl kept

/-! ### The random byte and the last response -/

/-- A state with another random byte and another last response at the host port. -/
def State.withPort (r : Byte) (q : Response) (s : State) : State := { s with rnd := r, response := q }

/-- An answer whose next state, if it has one, holds another random byte. -/
def answerWithRnd (r : Byte) : Result → Result
  | .next t => .next { t with rnd := r }
  | .fault f => .fault f
  | .refused f => .refused f

theorem complete_skipIf_withPort : complete (skipIf cond (s.withPort r q)) = answerWithRnd r (complete (skipIf cond s)) := by
  cases cond <;> rfl

theorem complete_updateI_withPort : complete (updateI x (s.withPort r q)) = answerWithRnd r (complete (updateI x s)) := by
  unfold updateI State.withPort
  cases s.config.lsIMode <;> rfl

theorem withinRange_withPort (hbody : body' = answerWithRnd r body) :
    withinRange n (s.withPort r q) body' = answerWithRnd r (withinRange n s body) := by
  obtain ⟨fits, runs⟩ | ⟨pos, exceeds, raises⟩ := withinRange_cases n s body
  · rwa [runs, withinRange_of_fits (s := s.withPort r q) fits]
  · rw [raises, withinRange_of_exceeds (s := s.withPort r q) pos exceeds]
    rfl

theorem keyAt_withPort {f g : Bool → Result} (hfg : ∀ down, f down = answerWithRnd r (g down)) :
    keyAt k (s.withPort r q) f = answerWithRnd r (keyAt k s g) := by
  by_cases hk : k.toNat < nKeys
  · rw [keyAt_of_lt hk, keyAt_of_lt hk]
    exact hfg _
  · rw [keyAt_of_missing (Nat.le_of_not_lt hk), keyAt_of_missing (Nat.le_of_not_lt hk)]
    rfl

theorem execRet_withPort : exec .ret (s.withPort r q) = answerWithRnd r (exec .ret s) := by
  by_cases empty : s.sp = 0
  · rw [execRet_of_empty (s := s.withPort r q) empty, execRet_of_empty empty]
    rfl
  · have pos : 0 < s.sp.toNat := BitVec.toNat_pos_of_ne_zero empty
    by_cases depth : s.sp.toNat ≤ stackDepth
    · rw [execRet_of_pos (s := s.withPort r q) pos depth, execRet_of_pos pos depth]
      rfl
    · rw [execRet_of_beyond (s := s.withPort r q) (Nat.lt_of_not_le depth), execRet_of_beyond (Nat.lt_of_not_le depth)]
      rfl

theorem execCallSub_withPort {nnn : BitVec 12} :
    exec (.callSub nnn) (s.withPort r q) = answerWithRnd r (exec (.callSub nnn) s) := by
  by_cases room : s.sp.toNat < stackDepth
  · rw [execCallSub_of_lt (s := s.withPort r q) room, execCallSub_of_lt room]
    rfl
  · rw [execCallSub_of_full (s := s.withPort r q) (Nat.le_of_not_lt room), execCallSub_of_full (Nat.le_of_not_lt room)]
    rfl

theorem execWaitKey_withPort : exec (.waitKey x) (s.withPort r q) = answerWithRnd r (exec (.waitKey x) s) := by
  cases pressed : lowestPressed s with
  | some k =>
    rw [execWaitKey_of_some (s := s.withPort r q) pressed, execWaitKey_of_some pressed]
    rfl
  | none =>
    rw [execWaitKey_of_none (s := s.withPort r q) pressed, execWaitKey_of_none pressed]
    rfl

/-- No instruction but Random reads the random byte, and none reads the last response (R123, R126). -/
theorem exec_withPort (notRandom : ∀ x kk, i ≠ .random x kk) :
    exec i (s.withPort r q) = answerWithRnd r (exec i s) := by
  cases i with
  | random x kk => exact absurd rfl (notRandom x kk)
  | ret => exact execRet_withPort
  | callSub => exact execCallSub_withPort
  | waitKey => exact execWaitKey_withPort
  | skipIfEq | skipIfNeq | skipIfRegEq | skipIfRegNeq => exact complete_skipIf_withPort
  | skipIfKey => exact keyAt_withPort (g := fun down => complete (skipIf down s)) fun _ => complete_skipIf_withPort
  | skipIfNotKey => exact keyAt_withPort (g := fun down => complete (skipIf (!down) s)) fun _ => complete_skipIf_withPort
  | draw | bcd => exact withinRange_withPort rfl
  | memStore x =>
    exact withinRange_withPort (complete_updateI_withPort (s := s.storeBytes s.i.toNat (storedRegs s x)))
  | memLoad x =>
    exact withinRange_withPort
      (complete_updateI_withPort (s := { s with v := loadRegs s.config s.mem s.i.toNat s.v (x.val + 1) }))
  | _ => rfl

/-- Settles O12: the last response, which `withPort` can also change, stays as it is. -/
theorem onlyRandomReadsTheRandomByte : Obligations.OnlyRandomReadsTheRandomByte := by
  unfold Obligations.OnlyRandomReadsTheRandomByte
  intro i s t r notRandom h
  have moved := exec_withPort (s := s) (r := r) (q := s.response) notRandom
  rw [h] at moved
  exact moved

/-- No instruction writes the random byte. -/
theorem answerWithRnd_exec : answerWithRnd s.rnd (exec i s) = exec i s := by
  cases h : exec i s with
  | next t =>
    obtain ⟨-, -, -, -, -, -, -, -, -, -, -, -, hrnd, -⟩ := exec_keepsExcept h
    rw [← hrnd]
    rfl
  | fault | refused => rfl

theorem exec_withResponse : exec i { s with response := q } = exec i s := by
  by_cases random : ∃ x kk, i = .random x kk
  · obtain ⟨x, kk, rfl⟩ := random
    rfl
  · have notRandom : ∀ x kk, i ≠ .random x kk := fun x kk hi => random ⟨x, kk, hi⟩
    exact (exec_withPort (r := s.rnd) notRandom).trans answerWithRnd_exec

theorem cmdStep_withResponse : cmdStep { s with response := q } = cmdStep s := by
  by_cases fits : s.pc.toNat + 1 < ramSize
  · cases hd : decode s.config.clearWord (fetchWord s) with
    | instr i =>
      rw [cmdStep_of_instr fits hd, cmdStep_of_instr (s := { s with response := q }) fits hd]
      exact exec_withResponse (s := advance s)
    | unknown w =>
      rw [cmdStep_of_unknown fits hd, cmdStep_of_unknown (s := { s with response := q }) fits hd]
      rfl
  · have missing := Nat.le_of_not_lt fits
    rw [cmdStep_of_missing missing, cmdStep_of_missing (s := { s with response := q }) missing]

theorem runCommand_withResponse {cmd : Command} : runCommand cmd { s with response := q } = runCommand cmd s := by
  cases cmd with
  | step rnd => exact cmdStep_withResponse (s := { s with rnd := rnd })
  | tick | keyDown | keyUp | load | reset | readFb | readState => rfl

/-- Settles O11: by the next command of the script, or STEP when there is none. -/
theorem noStepReadsTheLastResponse : Obligations.NoStepReadsTheLastResponse := by
  unfold Obligations.NoStepReadsTheLastResponse
  intro s q
  by_cases hp : s.pending = []
  · rw [step_of_no_pending hp, step_of_no_pending (s := { s with response := q }) hp]
    exact cmdStep_withResponse (s := { s with rnd := Config.randomByte s.draws, draws := s.draws + 1 })
  · obtain ⟨cmd, rest, hp⟩ := List.exists_cons_of_ne_nil hp
    rw [step_of_pending hp, step_of_pending (s := { s with response := q }) hp]
    exact runCommand_withResponse (s := { s with pending := rest })

end Sys2Proof.Machine
end

section
/-! PROOFS. Control flow, spec/41_control_flow.md: jumps and skips (R135, R137 to R141), the return stack (R131 to R133, R136) and the
deprecated Call (R134). Frames come from the table `writtenParts`, encodings from `decode_encode`. -/

namespace Sys2Proof.Machine

variable {s t : State} {i : Instr} {nnn : BitVec 12} {w : Word}

/-! ### Words, and addresses as numbers -/

/-- The decoder reads back an encoding that no CLEAR_WORD changes. -/
theorem encodes_of_encode (word : ∀ cw, encode cw i = w) (wellFormed : ∀ cw, i.WellFormed cw = true) : Encodes w i :=
  fun cw => word cw ▸ decode_encode (wellFormed cw)

theorem addressOf_eq_ofNat (nnn : BitVec 12) : addressOf nnn = BitVec.ofNat 16 nnn.toNat :=
  (BitVec.ofNat_toNat 16 nnn).symm

theorem wordV_eq_ofNat (s : State) (x : RegIdx) : wordV s x = BitVec.ofNat 16 (getV s x).toNat :=
  (BitVec.ofNat_toNat 16 (getV s x)).symm

/-! ### The return stack -/

/-- Settles O23: the two outcomes of the push. -/
theorem callSubPushesTheReturnAddress : Obligations.CallSubPushesTheReturnAddress := by
  unfold Obligations.CallSubPushesTheReturnAddress
  refine fun nnn s => ⟨encodes_of_encode (fun _ => rfl) fun _ => rfl, fun room => ?_,
    fun full => raises_of_eq (execCallSub_of_full full)⟩
  have pushes := execCallSub_of_lt (nnn := nnn) room
  refine ⟨_, pushes, rfl, addressOf_eq_ofNat nnn, ?spGrows, ?entryAtSp, ?otherEntries, exec_keepsExcept pushes⟩
  case spGrows =>
    have spBelow16 : s.sp.toNat < 16 := room
    show (s.sp + 1).toNat = s.sp.toNat + 1
    bv_omega
  case entryAtSp => exact Vector.getElem_set_self room
  case otherEntries => exact fun j hj other => Vector.getElem_set_ne room hj other.symm

/-- Settles O24: two of the three outcomes of the pop. -/
theorem returnPopsIntoPc : Obligations.ReturnPopsIntoPc := by
  unfold Obligations.ReturnPopsIntoPc
  refine fun s => ⟨fun _ => decode_returnWord, fun pos depth => ?_, fun empty => ?_⟩
  · have pops := execRet_of_pos pos depth
    refine ⟨_, pops, rfl, rfl, ?_, exec_keepsExcept pops⟩
    show (s.sp - 1).toNat = s.sp.toNat - 1
    bv_omega
  · exact raises_of_eq (execRet_of_empty (BitVec.eq_of_toNat_eq empty))

theorem sp_lt_of_callSub_ok (h : exec (.callSub nnn) s = .next t) (ok : t.response = .ok) : s.sp.toNat < stackDepth := by
  by_contra full
  rw [execCallSub_of_full (Nat.le_of_not_lt full)] at h
  obtain rfl := raise_eq_next.mp h
  contradiction

/-- Settles O26: O24's pop finds the entry that O23's push left. -/
theorem returnUndoesCallSub : Obligations.ReturnUndoesCallSub := by
  unfold Obligations.ReturnUndoesCallSub
  intro nnn s t u call ok hsp hstack
  have room := sp_lt_of_callSub_ok call ok
  obtain ⟨-, pushes, -⟩ := callSubPushesTheReturnAddress nnn s
  obtain ⟨t', call', -, -, pushedSp, pushedEntry, -, -⟩ := pushes room
  obtain rfl : t = t' := Host.Outcome.next.inj (call.symm.trans call')
  have usedEntries : u.sp.toNat = s.sp.toNat + 1 := hsp ▸ pushedSp
  obtain ⟨-, pops, -⟩ := returnPopsIntoPc u
  obtain ⟨r, ret, retOk, poppedPc, poppedSp, frame⟩ := pops (by omega) (by omega)
  refine ⟨r, ret, retOk, ?_, BitVec.eq_of_toNat_eq (by omega), frame⟩
  calc r.pc = u.stack[u.sp.toNat - 1] := poppedPc
    _ = t.stack[s.sp.toNat] := by simp only [hstack, usedEntries, Nat.add_sub_cancel]
    _ = s.pc := pushedEntry

/-! ### Jumps and skips -/

theorem transfersTo_of_jumpTo {target : State → Word} (h : ∀ s, exec i s = complete (jumpTo (target s) s)) :
    TransfersTo i target :=
  fun s => ⟨_, h s, rfl, rfl, keepsExcept_of_complete keepsExcept_jumpTo rfl⟩

/-- A skip is a transfer to the word after the next one, or to the next one (R130). -/
theorem transfersTo_of_skipIf {cond : State → Bool} {p : State → Prop} [DecidablePred p]
    (h : ∀ s, exec i s = complete (skipIf (cond s) s)) (condition : ∀ s, cond s = true ↔ p s) :
    TransfersTo i fun s => if p s then s.pc + 2 else s.pc := by
  refine transfersTo_of_jumpTo fun s => ?_
  simp only [h, skipIf_eq, jumpTo, condition]

/-- Settles O22: both targets are below 2^16, so no sum wraps. -/
theorem jumpsTakeTheirTarget : Obligations.JumpsTakeTheirTarget := by
  unfold Obligations.JumpsTakeTheirTarget
  refine fun nnn => ⟨encodes_of_encode (fun _ => rfl) fun _ => rfl, encodes_of_encode (fun _ => rfl) fun _ => rfl,
    transfersTo_of_jumpTo fun s => ?jump, transfersTo_of_jumpTo fun s => ?jumpPlusV0, fun s => ?noWrap⟩
  case jump =>
    rw [← addressOf_eq_ofNat]
    rfl
  case jumpPlusV0 =>
    rw [BitVec.ofNat_add, ← addressOf_eq_ofNat, ← wordV_eq_ofNat]
    rfl
  case noWrap => exact lt_trans (Nat.add_lt_add nnn.isLt (getV s 0).isLt) (by decide)

/-- Settles O27: four skips, two on equality and two on inequality. -/
theorem skipsOnConstantsAndRegisters : Obligations.SkipsOnConstantsAndRegisters := by
  unfold Obligations.SkipsOnConstantsAndRegisters
  refine fun x y kk => ⟨?wordEq, ?wordNeq, ?wordRegEq, ?wordRegNeq, ?skipIfEq, ?skipIfNeq, ?skipIfRegEq, ?skipIfRegNeq⟩
  case wordEq | wordNeq | wordRegEq | wordRegNeq => exact encodes_of_encode (fun _ => rfl) fun _ => rfl
  case skipIfEq | skipIfRegEq => exact transfersTo_of_skipIf (fun _ => rfl) fun _ => beq_iff_eq
  case skipIfNeq | skipIfRegNeq => exact transfersTo_of_skipIf (fun _ => rfl) fun _ => bne_iff_ne

/-! ### The deprecated Call -/

/-- Settles O28: the only 12-bit constant whose word is Return's is 0x0EE. -/
theorem deprecatedCallOnlyReports : Obligations.DeprecatedCallOnlyReports := by
  unfold Obligations.DeprecatedCallOnlyReports
  refine fun nnn s => ⟨fun cw notClear notReturn => decode_encode (wellFormed_call_iff.mpr ?_), ?_⟩
  · rw [formNNN_zero]
    exact ⟨notClear, by bv_omega⟩
  · rw [← addressOf_eq_ofNat]
    exact raises_of_eq rfl

end Sys2Proof.Machine
end

section
/-! PROOFS. The ALU, spec/42_alu.md (R153 to R163, R165): one lemma per shape of effect, a register alone or a result and then VF, and the
numbers that the byte operations compute. -/

namespace Sys2Proof.Machine

variable {i : Instr} {x : RegIdx} {a b : Byte}

/-! ### The two shapes of an effect -/

/-- An instruction that completes with one register write. -/
theorem writesRegister_of_setV {value : State → Byte} (h : ∀ s, exec i s = complete (setV x (value s) s)) :
    WritesRegister i x value := by
  intro s
  have registers := fun r => getV_setV x r (value s) s
  refine ⟨_, h s, rfl, ?written, fun r notX => ?others, keepsExcept_of_complete keepsExcept_setV rfl⟩
  case written => rw [getV_of_complete rfl (registers x), if_pos rfl]
  case others => rw [getV_of_complete rfl (registers r), if_neg notX]

/-- The same, with the byte given by its number. -/
theorem writesRegister_of_number {result : State → Byte} {value : State → Nat}
    (h : ∀ s, exec i s = complete (setV x (result s) s)) (number : ∀ s, (result s).toNat = value s) :
    WritesRegister i x fun s => BitVec.ofNat 8 (value s) := by
  refine writesRegister_of_setV fun s => ?_
  rw [← number, BitVec.ofNat_toNat, BitVec.setWidth_eq, h]

/-- An instruction that completes with a result and then a flag (R152): VF holds the flag whatever the result register is. -/
theorem writesResultThenFlag_of_setResultThenFlag {result : State → Byte} {flag : State → Bool} {value : State → Nat}
    {p : State → Prop} (h : ∀ s, exec i s = complete (setResultThenFlag x (result s) (flag s) s))
    (number : ∀ s, (result s).toNat = value s) (condition : ∀ s, flag s = true ↔ p s) :
    WritesResultThenFlag i x value p := by
  intro s
  have registers := fun r => getV_setResultThenFlag x r (result s) (flag s) s
  refine ⟨_, h s, rfl, fun notVF => ?result, fun set => ?flagSet, fun clear => ?flagClear, fun r notX notVF => ?others,
    keepsExcept_of_complete keepsExcept_setResultThenFlag rfl⟩
  case result =>
    rw [getV_of_complete rfl (registers x), if_neg notVF, if_pos rfl, number]
  case flagSet =>
    rw [getV_of_complete rfl (registers vF), if_pos rfl, (condition s).mpr set]
    rfl
  case flagClear =>
    rw [getV_of_complete rfl (registers vF), if_pos rfl, Bool.eq_false_iff.mpr (mt (condition s).mp clear)]
    rfl
  case others =>
    rw [getV_of_complete rfl (registers r), if_neg notVF, if_neg notX]

/-! ### Bytes as numbers -/

theorem toNat_sub_byte (a b : Byte) : (a - b).toNat = (256 + a.toNat - b.toNat) % 256 := by
  bv_omega

theorem toNat_shiftRight_one (a : Byte) : (a >>> 1).toNat = a.toNat / 2 :=
  BitVec.toNat_ushiftRight a 1

theorem toNat_shiftLeft_one (a : Byte) : (a <<< 1).toNat = a.toNat * 2 % 256 := by
  rw [BitVec.toNat_shiftLeft, Nat.shiftLeft_eq]

theorem carry_iff : carry a b = true ↔ a.toNat + b.toNat > 0xFF := decide_eq_true_iff

theorem notBorrow_iff : notBorrow a b = true ↔ a.toNat ≥ b.toNat := decide_eq_true_iff

theorem lsb_iff : lsb a = true ↔ a.toNat % 2 = 1 := by
  rw [lsb, BitVec.getLsbD, Nat.testBit_zero, decide_eq_true_iff]

theorem msb_iff : msb a = true ↔ a.toNat ≥ 128 := by
  have top : msb a = a.msb := rfl
  rw [top, BitVec.msb_eq_decide, decide_eq_true_iff]

/-! ### The instructions with a flag -/

/-- Settles O31: the sum of the bytes is the sum of the numbers modulo 256. -/
theorem addRegSetsCarry : Obligations.AddRegSetsCarry := by
  unfold Obligations.AddRegSetsCarry
  exact fun x y => ⟨encodes_of_encode (fun _ => rfl) fun _ => rfl,
    writesResultThenFlag_of_setResultThenFlag (fun _ => rfl) (fun _ => BitVec.toNat_add ..) fun _ => carry_iff⟩

/-- Settles O32: SubN is Sub with the operands exchanged. -/
theorem subtractionsSetNotBorrow : Obligations.SubtractionsSetNotBorrow := by
  unfold Obligations.SubtractionsSetNotBorrow
  refine fun x y => ⟨?wordSub, ?wordSubN, ?sub, ?subN⟩
  case wordSub | wordSubN => exact encodes_of_encode (fun _ => rfl) fun _ => rfl
  case sub | subN =>
    exact writesResultThenFlag_of_setResultThenFlag (fun _ => rfl) (fun _ => toNat_sub_byte ..) fun _ => notBorrow_iff

/-- Settles O33: the bit shifted out is bit 0 or bit 7 of the old value, and the meanings do not read y. -/
theorem shiftsMoveTheLostBitToVF : Obligations.ShiftsMoveTheLostBitToVF := by
  unfold Obligations.ShiftsMoveTheLostBitToVF
  refine fun x y => ⟨?wordShr, ?wordShl, ?shr, ?shl, fun _ _ => ⟨rfl, rfl⟩⟩
  case wordShr | wordShl => exact encodes_of_encode (fun _ => rfl) fun _ => rfl
  case shr =>
    exact writesResultThenFlag_of_setResultThenFlag (fun _ => rfl) (fun _ => toNat_shiftRight_one _) fun _ => lsb_iff
  case shl =>
    exact writesResultThenFlag_of_setResultThenFlag (fun _ => rfl) (fun _ => toNat_shiftLeft_one _) fun _ => msb_iff

/-! ### The instructions without a flag -/

/-- Settles O29: both are one register write. -/
theorem constantsWriteOnlyTheirRegister : Obligations.ConstantsWriteOnlyTheirRegister := by
  unfold Obligations.ConstantsWriteOnlyTheirRegister
  refine fun x kk => ⟨?wordSetConst, ?wordAddConst, ?setConst, ?addConst⟩
  case wordSetConst | wordAddConst => exact encodes_of_encode (fun _ => rfl) fun _ => rfl
  case setConst => exact writesRegister_of_setV fun _ => rfl
  case addConst => exact writesRegister_of_number (fun _ => rfl) fun _ => BitVec.toNat_add ..

/-- Settles O30: each is one register write of a bitwise operation. -/
theorem copyAndLogicWriteNoFlag : Obligations.CopyAndLogicWriteNoFlag := by
  unfold Obligations.CopyAndLogicWriteNoFlag
  refine fun x y => ⟨?wordCopy, ?wordOr, ?wordAnd, ?wordXor, ?copy, ?or, ?and, ?xor⟩
  case wordCopy | wordOr | wordAnd | wordXor => exact encodes_of_encode (fun _ => rfl) fun _ => rfl
  case copy => exact writesRegister_of_setV fun _ => rfl
  case or => exact writesRegister_of_number (fun _ => rfl) fun _ => BitVec.toNat_or ..
  case and => exact writesRegister_of_number (fun _ => rfl) fun _ => BitVec.toNat_and ..
  case xor => exact writesRegister_of_number (fun _ => rfl) fun _ => BitVec.toNat_xor ..

/-- Settles O34: the mask of the byte at hand, whatever it is. -/
theorem randomMasksTheSuppliedByte : Obligations.RandomMasksTheSuppliedByte := by
  unfold Obligations.RandomMasksTheSuppliedByte
  exact fun x kk => ⟨encodes_of_encode (fun _ => rfl) fun _ => rfl,
    writesRegister_of_number (fun _ => rfl) fun _ => BitVec.toNat_and ..⟩

end Sys2Proof.Machine
end

section
/-! PROOFS. The address register and the memory instructions, spec/43_index_memory.md (R170 to R176): the bytes a store leaves at its own
addresses, I after UpdateI, and the range error. Frames come from the table `writtenParts`, the bytes outside a store from O18's lemmas. -/

namespace Sys2Proof.Machine

variable {s : State} {i : Instr} {x : RegIdx} {c : Config} {bs : List Byte} {a j n : Nat}

/-! ### The range error -/

/-- A guarded instruction raises when the last of its bytes at I does not exist (R64). -/
theorem raises_of_withinRange {body : Result} (h : exec i s = withinRange (n + 1) s body)
    (exceeds : ramSize ≤ s.i.toNat + n) : Raises i s (.addressOutOfRange .memory (max s.i.toNat ramSize) .execute) :=
  raises_of_eq (h.trans (withinRange_of_exceeds (Nat.succ_pos n) (Nat.lt_succ_of_le exceeds)))

/-! ### I as a number -/

theorem toNat_add_ofNat (w : Word) (n : Nat) : (w + BitVec.ofNat 16 n).toNat = (w.toNat + n) % 2 ^ 16 := by
  rw [BitVec.toNat_add, BitVec.toNat_ofNat, Nat.add_mod_mod]

/-- No byte times 5 reaches 2^16 (R172). -/
theorem toNat_wordV_mul_five (s : State) (x : RegIdx) : (wordV s x * 5).toNat = (getV s x).toNat * 5 := by
  rw [wordV_eq_ofNat]
  bv_omega

/-- UpdateI as R176 says it, over naturals. -/
theorem toNat_updateI_i (x : RegIdx) (s : State) : (updateI x s).i.toNat =
    match s.config.lsIMode with
    | .keep => s.i.toNat
    | .plusXPlus1 => (s.i.toNat + x.val + 1) % 2 ^ 16
    | .plusX => (s.i.toNat + x.val) % 2 ^ 16 := by
  rw [updateI_i]
  cases s.config.lsIMode with
  | keep => rfl
  | plusXPlus1 => exact toNat_add_ofNat s.i (x.val + 1)
  | plusX => exact toNat_add_ofNat s.i x.val

theorem indexPart_subset : indexPart c ⊆ [.i] :=
  fun _ hp => List.mem_singleton.mpr (mem_indexPart.mp hp).1

/-- An instruction that completes with one write of I. -/
theorem writesIndex_of_setI {target : State → Word} {value : State → Nat}
    (h : ∀ s, exec i s = complete (setI (target s) s)) (number : ∀ s, (target s).toNat = value s) :
    WritesIndex i value :=
  fun s => ⟨_, h s, rfl, number s, keepsExcept_of_complete keepsExcept_setI rfl⟩

/-! ### Bcd -/

theorem byteAt_storeBytes_of_lt (hs : s.Inv) (fits : a + bs.length ≤ ramSize) (hj : j < bs.length) :
    (s.storeBytes a bs).byteAt (a + j) = bs.getD j 0 := by
  obtain ⟨-, hmem, -⟩ := hs
  rw [byteAt_storeBytes s bs hmem fits, if_pos (by omega), Nat.add_sub_cancel_left]

theorem toNat_bcdDigits (v : Byte) : ((bcdDigits v).getD 0 0).toNat = v.toNat / 100 ∧
    ((bcdDigits v).getD 1 0).toNat = v.toNat / 10 % 10 ∧ ((bcdDigits v).getD 2 0).toNat = v.toNat % 10 := by
  have hv := v.isLt
  refine ⟨?_, ?_, ?_⟩ <;> exact Nat.mod_eq_of_lt (by omega)

/-- Settles O36: the digits are below 256, so each is the byte stored. -/
theorem bcdStoresTheDecimalDigits : Obligations.BcdStoresTheDecimalDigits := by
  unfold Obligations.BcdStoresTheDecimalDigits
  refine fun x s => ⟨encodes_of_encode (fun _ => rfl) fun _ => rfl, fun hs fits => ?_, raises_of_withinRange (n := 2) rfl⟩
  have stores := execBcd_of_fits (x := x) fits
  have digit (j : Nat) (hj : j < 3) := byteAt_storeBytes_of_lt (bs := bcdDigits (getV s x)) hs fits hj
  obtain ⟨hundreds, tens, ones⟩ := toNat_bcdDigits (getV s x)
  rw [← digit 0 (by omega)] at hundreds
  rw [← digit 1 (by omega)] at tens
  rw [← digit 2 (by omega)] at ones
  exact ⟨_, stores, rfl, hundreds, tens, ones, execBcd_keepsMemoryOutside hs stores, exec_keepsExcept stores⟩

/-! ### MemStore and MemLoad -/

/-- Settles O37: UpdateI leaves the stored bytes as they are. -/
theorem memStoreCopiesRegistersToMemory : Obligations.MemStoreCopiesRegistersToMemory := by
  unfold Obligations.MemStoreCopiesRegistersToMemory
  refine fun x s => ⟨encodes_of_encode (fun _ => rfl) fun _ => rfl, fun hs fits => ?_, raises_of_withinRange rfl⟩
  have stores := execMemStore_of_fits fits
  exact ⟨_, stores, rfl, fun r hr => byteAt_updateI.trans (byteAt_storeBytes_storedRegs hs fits hr),
    toNat_updateI_i x _, execMemStore_keepsMemoryOutside hs stores,
    (exec_keepsExcept stores).mono (List.cons_subset_cons _ indexPart_subset)⟩

/-- Settles O38: UpdateI leaves the loaded registers as they are. -/
theorem memLoadCopiesMemoryToRegisters : Obligations.MemLoadCopiesMemoryToRegisters := by
  unfold Obligations.MemLoadCopiesMemoryToRegisters
  refine fun x s => ⟨encodes_of_encode (fun _ => rfl) fun _ => rfl, fun fits => ?_, raises_of_withinRange rfl⟩
  have loads := execMemLoad_of_fits fits
  refine ⟨_, loads, rfl, fun r => ?loaded, toNat_updateI_i x _,
    (exec_keepsExcept loads).mono (List.cons_subset_cons _ indexPart_subset)⟩
  case loaded =>
    rw [getV_of_complete rfl getV_updateI]
    simp only [← Nat.lt_succ_iff]
    exact getElem_loadRegs s.v (x.val + 1) r

/-! ### SetIndex, MemAdd and MemFont -/

/-- Settles O35: each is one write of I. -/
theorem indexInstructionsWriteOnlyI : Obligations.IndexInstructionsWriteOnlyI := by
  unfold Obligations.IndexInstructionsWriteOnlyI
  refine fun x nnn => ⟨?wordSetIndex, ?wordMemAdd, ?wordMemFont, ?setIndex, ?memAdd, ?memFont⟩
  case wordSetIndex | wordMemAdd | wordMemFont => exact encodes_of_encode (fun _ => rfl) fun _ => rfl
  case setIndex =>
    exact writesIndex_of_setI (fun _ => rfl) fun _ => BitVec.toNat_setWidth_of_le (by decide)
  case memAdd =>
    refine writesIndex_of_setI (fun _ => rfl) fun s => ?_
    rw [wordV_eq_ofNat, toNat_add_ofNat]
  case memFont => exact writesIndex_of_setI (fun _ => rfl) fun s => toNat_wordV_mul_five s x

end Sys2Proof.Machine
end

section
/-! PROOFS. The display, spec/44_display.md (R180 to R182): what the loop of R181 does to the grid and to its accumulator, for any list of
pixels, and that the sprite's list holds each pixel as often as `spriteHits` counts. -/

namespace Sys2Proof.Machine

variable {s t u : State} {x y : RegIdx} {n : Fin 16} {w h px py : Nat} {fb fb' : List Bool} {p : Nat × Nat}
  {ps : List (Nat × Nat)}

/-! ### The grid -/

/-- R7's domain of the two screen dimensions. -/
theorem config_wf_iff {c : Config} : c.wf = true ↔ 0 < c.screenW ∧ 0 < c.screenH := by
  rw [Config.wf, Bool.and_eq_true, decide_eq_true_iff, decide_eq_true_iff]
  rfl

/-- A grid of w columns and h rows is what its pixels read (R43). -/
theorem fb_eq_of_pixels_alike (hw : 0 < w) (size : fb.length = w * h) (size' : fb'.length = w * h)
    (alike : ∀ px py, px < w → py < h → fbGet w fb px py = fbGet w fb' px py) : fb = fb' := by
  refine List.ext_getElem (size.trans size'.symm) fun k hk hk' => ?_
  have pixel_k := alike (k % w) (k / w) (Nat.mod_lt k hw) (Nat.div_lt_of_lt_mul (size ▸ hk))
  rwa [fbGet, fbGet, Nat.div_add_mod', List.getD_eq_getElem _ _ hk, List.getD_eq_getElem _ _ hk'] at pixel_k

theorem fbGet_fbBlank (c : Config) (w px py : Nat) : fbGet w (fbBlank c) px py = false := by
  rw [fbGet, fbBlank, List.getD_eq_getElem?_getD, List.getElem?_replicate]
  split <;> rfl

/-- Settles O40: the blank grid has no lit pixel, and the frame is Clear's row of `writtenParts`. -/
theorem clearTurnsEveryPixelOff : Obligations.ClearTurnsEveryPixelOff := by
  unfold Obligations.ClearTurnsEveryPixelOff
  exact fun s => ⟨decode_clearWord, _, rfl, rfl, List.length_replicate, fun _ _ _ _ => fbGet_fbBlank ..,
    exec_keepsExcept (i := .clear) rfl⟩

/-! ### One pass of R181's loop -/

/-- The list holds pixels of a grid of w columns and h rows only. -/
def InGrid (w h : Nat) (ps : List (Nat × Nat)) : Prop := ∀ p ∈ ps, p.1 < w ∧ p.2 < h

/-- The grid after `togglePixel`. -/
def invertPixel (w : Nat) (fb : List Bool) (p : Nat × Nat) : List Bool :=
  fbSet w fb p.1 p.2 (!fbGet w fb p.1 p.2)

theorem togglePixel_eq (flag : Bool) :
    togglePixel w (fb, flag) p = (invertPixel w fb p, flag || fbGet w fb p.1 p.2) := rfl

@[simp] theorem length_invertPixel : (invertPixel w fb p).length = fb.length := List.length_set

theorem fbGet_invertPixel (size : fb.length = w * h) (hp : p.1 < w ∧ p.2 < h) (hx : px < w) :
    fbGet w (invertPixel w fb p) px py = (fbGet w fb px py ^^ decide ((px, py) = p)) := by
  obtain ⟨qx, qy⟩ := p
  obtain ⟨col, row⟩ := hp
  rw [invertPixel, fbGet_fbSet col hx (size ▸ fbIndex_lt col row)]
  by_cases same : px = qx ∧ py = qy
  · obtain ⟨rfl, rfl⟩ := same
    simp
  · simp [same]

/-- The accumulator only grows: a pass that begins with a flag ends with that flag or its own. -/
theorem foldl_togglePixel (flag : Bool) :
    ps.foldl (togglePixel w) (fb, flag) = ((drawPixels w fb ps).1, flag || (drawPixels w fb ps).2) := by
  induction ps generalizing fb flag with
  | nil => simp [drawPixels]
  | cons p ps ih =>
    rw [drawPixels, List.foldl_cons, List.foldl_cons, togglePixel_eq, togglePixel_eq, ih, ih (false || _)]
    simp [Bool.or_assoc]

theorem drawPixels_nil : drawPixels w fb [] = (fb, false) := rfl

theorem drawPixels_cons : drawPixels w fb (p :: ps) =
    ((drawPixels w (invertPixel w fb p) ps).1,
      fbGet w fb p.1 p.2 || (drawPixels w (invertPixel w fb p) ps).2) :=
  foldl_togglePixel (false || fbGet w fb p.1 p.2)

/-! ### The whole loop in closed form -/

/-- Each pixel is inverted as often as it is listed. -/
theorem fbGet_drawPixels (size : fb.length = w * h) (grid : InGrid w h ps) (hx : px < w) :
    fbGet w (drawPixels w fb ps).1 px py = (fbGet w fb px py ^^ decide (ps.count (px, py) % 2 = 1)) := by
  induction ps generalizing fb with
  | nil => simp [drawPixels_nil]
  | cons p ps ih =>
    obtain ⟨hp, hps⟩ := List.forall_mem_cons.mp grid
    rw [drawPixels_cons, ih (length_invertPixel.trans size) hps, fbGet_invertPixel size hp hx, Bool.xor_assoc]
    congr 1
    by_cases same : (px, py) = p
    · subst same
      rw [List.count_cons_self]
      obtain parity | parity := Nat.mod_two_eq_zero_or_one (ps.count (px, py)) <;>
        simp [Nat.succ_mod_two_eq_one_iff, parity]
    · rw [List.count_cons_of_ne (Ne.symm same)]
      simp [same]

/-- The accumulator tells whether some listed pixel was lit at the start or is listed twice. -/
theorem snd_drawPixels (size : fb.length = w * h) (grid : InGrid w h ps) :
    (drawPixels w fb ps).2 = true ↔ ∃ p ∈ ps, fbGet w fb p.1 p.2 = true ∨ 2 ≤ ps.count p := by
  induction ps generalizing fb with
  | nil => simp [drawPixels_nil]
  | cons q ps ih =>
    obtain ⟨hq, hps⟩ := List.forall_mem_cons.mp grid
    have inverted : ∀ p ∈ ps, fbGet w (invertPixel w fb q) p.1 p.2 = (fbGet w fb p.1 p.2 ^^ decide (p = q)) :=
      fun p hp => fbGet_invertPixel size hq (hps p hp).1
    rw [drawPixels_cons, Bool.or_eq_true, ih (length_invertPixel.trans size) hps]
    cases lit : fbGet w fb q.1 q.2 with
    | true => exact iff_of_true (.inl rfl) ⟨q, List.mem_cons_self, .inl lit⟩
    | false =>
      have later (p) (hp : p ∈ ps) : (fbGet w (invertPixel w fb q) p.1 p.2 = true ∨ 2 ≤ ps.count p) ↔
          (fbGet w fb p.1 p.2 = true ∨ 2 ≤ (q :: ps).count p) := by
        rw [inverted p hp]
        by_cases same : p = q
        · subst same
          have listed := List.count_pos_iff.mpr hp
          exact iff_of_true (.inl (by simp [lit])) (.inr (by rw [List.count_cons_self]; omega))
        · rw [List.count_cons_of_ne (Ne.symm same)]
          simp [same]
      constructor
      · rintro (unlit | ⟨p, hp, erased⟩)
        · contradiction
        · exact ⟨p, List.mem_cons_of_mem q hp, (later p hp).mp erased⟩
      · rintro ⟨p, hp, erased⟩
        have again : p ∈ ps := by
          obtain rfl | hp := List.mem_cons.mp hp
          · have twice := erased.resolve_left (by simp [lit])
            rw [List.count_cons_self] at twice
            exact List.count_pos_iff.mp (by omega)
          · exact hp
        exact .inr ⟨p, again, (later p again).mpr erased⟩

/-- The source's XOR self-cancellation: each pixel is inverted an even number of times in all. -/
theorem fst_drawPixels_twice (hw : 0 < w) (size : fb.length = w * h) (grid : InGrid w h ps) :
    (drawPixels w (drawPixels w fb ps).1 ps).1 = fb := by
  have size' : (drawPixels w fb ps).1.length = w * h := (length_drawPixels ..).trans size
  refine fb_eq_of_pixels_alike hw ((length_drawPixels ..).trans size') size fun px py hx _ => ?_
  rw [fbGet_drawPixels size' grid hx, fbGet_drawPixels size grid hx, Bool.xor_assoc, Bool.xor_self, Bool.xor_false]

/-- A pixel that the first loop lit is erased by the second. -/
theorem snd_drawPixels_twice (size : fb.length = w * h) (grid : InGrid w h ps) (hx : px < w)
    (unlit : fbGet w fb px py = false) (lit : fbGet w (drawPixels w fb ps).1 px py = true) :
    (drawPixels w (drawPixels w fb ps).1 ps).2 = true := by
  have size' : (drawPixels w fb ps).1.length = w * h := (length_drawPixels ..).trans size
  have odd : ps.count (px, py) % 2 = 1 := by simpa [unlit, lit] using fbGet_drawPixels (py := py) size grid hx
  exact (snd_drawPixels size' grid).mpr ⟨(px, py), List.count_pos_iff.mp (by omega), .inl lit⟩

/-! ### The sprite's pixels -/

theorem inGrid_spritePixels (hw : 0 < w) (hh : 0 < h) (x0 y0 row : Nat) (bs : List Byte) :
    InGrid w h (spritePixels w h x0 y0 row bs) := by
  induction bs generalizing row with
  | nil => exact fun _ hp => absurd hp List.not_mem_nil
  | cons b bs ih =>
    intro p hp
    obtain hp | hp := List.mem_append.mp hp
    · obtain ⟨col, -, rfl⟩ := List.mem_map.mp hp
      exact ⟨Nat.mod_lt _ hw, Nat.mod_lt _ hh⟩
    · exact ih (row + 1) p hp

/-- How often a row holds a pixel: once for each of its set bits whose target is that pixel. -/
theorem count_rowPixels (x0 y0 row : Nat) (b : Byte) :
    (rowPixels w h x0 y0 row b).count (px, py) = (List.range 8).countP fun col =>
      b.getLsbD (7 - col) && (x0 + col) % w == px && (y0 + row) % h == py := by
  rw [rowPixels, List.count, List.countP_map, List.countP_filter]
  refine List.countP_congr fun col _ => ?_
  simp only [Bool.and_eq_true, beq_iff_eq, Prod.mk.injEq, Function.comp_apply]
  tauto

/-- How often a sprite read from memory holds a pixel: the sum over its rows. -/
theorem count_spritePixels (c : Config) (m : Memory) (x0 y0 row a n : Nat) :
    (spritePixels w h x0 y0 row (Memory.readBytes c m a n)).count p =
      ((List.range n).map fun j => (rowPixels w h x0 y0 (row + j) (Memory.read c m (a + j))).count p).sum := by
  induction n generalizing row a with
  | zero => rfl
  | succ n ih =>
    rw [Memory.readBytes, spritePixels, List.count_append, ih, List.range_succ_eq_map, List.map_cons, List.sum_cons,
      List.map_map]
    simp only [Function.comp_def, Nat.succ_eq_add_one, Nat.add_assoc, Nat.add_comm 1, Nat.add_zero]

theorem count_drawnPixels : (drawnPixels x y n s).count (px, py) =
    spriteHits s (getV s x).toNat (getV s y).toNat n.val px py := by
  simp only [drawnPixels, count_spritePixels, count_rowPixels, Nat.zero_add]
  rfl

theorem inGrid_drawnPixels (hwf : s.config.wf = true) :
    InGrid s.config.screenW s.config.screenH (drawnPixels x y n s) := by
  obtain ⟨hw, hh⟩ := config_wf_iff.mp hwf
  exact inGrid_spritePixels hw hh _ _ _ _

/-- The sprite depends on the configuration, on I, on the bytes of memory and on V[x] and V[y] alone. -/
theorem drawnPixels_congr (config : u.config = s.config) (index : u.i = s.i) (mem : ∀ a, u.byteAt a = s.byteAt a)
    (hx : getV u x = getV s x) (hy : getV u y = getV s y) : drawnPixels x y n u = drawnPixels x y n s := by
  have rows : Memory.readBytes u.config u.mem u.i.toNat n = Memory.readBytes s.config s.mem s.i.toNat n := by
    refine List.ext_getElem (by simp) fun j _ _ => ?_
    rw [Memory.getElem_readBytes, Memory.getElem_readBytes, index]
    exact mem _
  rw [drawnPixels, rows, config, hx, hy, drawnPixels]

/-! ### Draw -/

theorem flagByte_eq_one_iff {flag : Bool} : flagByte flag = 1 ↔ flag = true := by
  cases flag <;> decide

theorem flagByte_eq_zero_or_one (flag : Bool) : flagByte flag = 0 ∨ flagByte flag = 1 := by
  cases flag <;> decide

/-- The row count as the nibble of the word (R93). -/
theorem encode_draw {cw : ClearWord} : encode cw (.draw x y n) = formXYN 0xD x y (BitVec.ofNat 4 n.val) :=
  congrArg (formXYN 0xD x y) (BitVec.eq_of_toNat_eq (Nat.mod_eq_of_lt n.isLt).symm)

theorem draw_fits_of_ok (draws : exec (.draw x y n) s = .next t) (ok : t.response = .ok) :
    n.val = 0 ∨ s.i.toNat + n.val ≤ ramSize := by
  by_contra exceeds
  have raises : exec (.draw x y n) s = raise _ s := withinRange_of_exceeds (by omega) (by omega)
  obtain rfl := raise_eq_next.mp (raises ▸ draws)
  contradiction

section
variable (hwf : s.config.wf = true) (size : s.fb.length = s.config.screenW * s.config.screenH)
  (fits : n.val = 0 ∨ s.i.toNat + n.val ≤ ramSize) (draws : exec (.draw x y n) s = .next t)
include hwf size fits draws

/-- R181's effect on the screen: each pixel is inverted once per hit. -/
theorem pixel_of_draw (hx : px < s.config.screenW) : pixel t px py =
    (pixel s px py ^^ decide (spriteHits s (getV s x).toNat (getV s y).toNat n.val px py % 2 = 1)) := by
  obtain rfl := complete_eq_next.mp (execDraw_of_fits fits ▸ draws)
  rw [← count_drawnPixels]
  exact fbGet_drawPixels size (inGrid_drawnPixels hwf) hx

/-- R181's flag: some pixel was lit and hit, or was hit twice. -/
theorem vF_of_draw : getV t vF = 1 ↔ ∃ px py, px < s.config.screenW ∧ py < s.config.screenH ∧
    ((pixel s px py = true ∧ 1 ≤ spriteHits s (getV s x).toNat (getV s y).toNat n.val px py) ∨
      2 ≤ spriteHits s (getV s x).toNat (getV s y).toNat n.val px py) := by
  have grid := inGrid_drawnPixels (x := x) (y := y) (n := n) hwf
  rw [execDraw_of_fits fits] at draws
  rw [getV_of_complete draws (getV_setFlag ..), if_pos rfl, flagByte_eq_one_iff, snd_drawPixels size grid]
  simp only [← count_drawnPixels]
  constructor
  · rintro ⟨⟨px, py⟩, listed, erased⟩
    obtain ⟨col, row⟩ := grid _ listed
    exact ⟨px, py, col, row, erased.imp_left fun lit => ⟨lit, List.count_pos_iff.mpr listed⟩⟩
  · rintro ⟨px, py, -, -, erased⟩
    exact ⟨(px, py), List.count_pos_iff.mp (by omega), erased.imp_left And.left⟩

end

/-- Settles O41: the closed form of the loop, read at the sprite's list. -/
theorem drawXorsTheSpriteAndReportsErasure : Obligations.DrawXorsTheSpriteAndReportsErasure := by
  unfold Obligations.DrawXorsTheSpriteAndReportsErasure
  refine fun x y n s => ⟨encodes_of_encode (fun _ => encode_draw) fun _ => rfl, fun hs fits => ?_, fun rows exceeds =>
    raises_of_eq (withinRange_of_exceeds rows exceeds)⟩
  obtain ⟨hwf, -, size, -⟩ := hs
  have draws := execDraw_of_fits (x := x) (y := y) fits
  refine ⟨_, draws, rfl, fun px py hx _ => pixel_of_draw hwf size fits draws hx, vF_of_draw hwf size fits draws,
    ?flag, fun r notVF => ?others, length_drawPixels .., exec_keepsExcept draws⟩
  case flag =>
    rw [getV_of_complete rfl (getV_setFlag ..), if_pos rfl]
    exact flagByte_eq_zero_or_one _
  case others =>
    rw [getV_of_complete rfl (getV_setFlag ..), if_neg notVF]
    rfl

/-- Settles O42: both draws run the loop over one list of pixels, and a pixel the first one lit is listed. -/
theorem drawingTwiceRestoresTheScreen : Obligations.DrawingTwiceRestoresTheScreen := by
  unfold Obligations.DrawingTwiceRestoresTheScreen
  intro x y n s t u hs first ok fb config index mem hx hy
  obtain ⟨hwf, -, size, -⟩ := hs
  obtain ⟨hw, -⟩ := config_wf_iff.mp hwf
  have fits := draw_fits_of_ok first ok
  obtain rfl := complete_eq_next.mp (execDraw_of_fits fits ▸ first)
  have grid := inGrid_drawnPixels (x := x) (y := y) (n := n) hwf
  have second := execDraw_of_fits (s := u) (x := x) (y := y) (n := n) (index ▸ fits)
  rw [drawnPixels_congr config index mem hx hy, config, fb] at second
  refine ⟨_, second, rfl, fst_drawPixels_twice hw size grid, fun ⟨px, py, col, _, unlit, lit⟩ => ?_⟩
  rw [getV_of_complete rfl (getV_setFlag ..), if_pos rfl, flagByte_eq_one_iff]
  exact snd_drawPixels_twice size grid col unlit lit

/-- Settles O43: no row lists no pixel, so Draw is one write of VF. -/
theorem drawOfNoRowsOnlyClearsVF : Obligations.DrawOfNoRowsOnlyClearsVF := by
  unfold Obligations.DrawOfNoRowsOnlyClearsVF
  exact fun x y => writesRegister_of_setV (value := fun _ => 0) fun _ => execDraw_of_fits (.inl rfl)

end Sys2Proof.Machine
end

section
/-! PROOFS. Keypad and timers, spec/45_keys_timers.md (R190 to R197): the skips on a key, WaitKey with and without a pressed key, and the
three timer moves. Frames come from the table `writtenParts` and the frames of the shared operations, encodings from `decode_encode`. -/

namespace Sys2Proof.Machine

variable {s : State} {i : Instr} {x : RegIdx} {k : Nat}

/-! ### Skips on a key -/

/-- A skip in one state, with its condition as a proposition (R130). -/
theorem skips_of_skipIf {cond : Bool} {p : Prop} [Decidable p] (h : exec i s = complete (skipIf cond s))
    (condition : cond = true ↔ p) : ∃ t, exec i s = .next t ∧ t.response = .ok ∧
      t.pc = (if p then s.pc + 2 else s.pc) ∧ KeepsExcept [.pc] s t := by
  refine ⟨_, h, rfl, ?_, keepsExcept_of_complete keepsExcept_skipIf rfl⟩
  simp only [skipIf_eq, condition]

/-- Settles O44: the two outcomes of KeyAt, for either skip. -/
theorem skipsOnKeys : Obligations.SkipsOnKeys := by
  unfold Obligations.SkipsOnKeys
  refine fun x s => ⟨?wordKey, ?wordNotKey, fun named => ⟨?skipIfKey, ?skipIfNotKey⟩, fun missing => ⟨?keyError, ?notKeyError⟩⟩
  case wordKey | wordNotKey => exact encodes_of_encode (fun _ => rfl) fun _ => rfl
  case skipIfKey => exact skips_of_skipIf (execSkipIfKey_of_lt named) Iff.rfl
  case skipIfNotKey => exact skips_of_skipIf (execSkipIfNotKey_of_lt named) (iff_of_eq (Bool.not_eq_true' _))
  case keyError => exact raises_of_eq (execSkipIfKey_of_missing missing)
  case notKeyError => exact raises_of_eq (execSkipIfNotKey_of_missing missing)

/-! ### WaitKey -/

/-- A key's index is its number as a byte (R193). -/
theorem toNat_ofNat_key (named : k < nKeys) : (BitVec.ofNat 8 k).toNat = k :=
  Nat.mod_eq_of_lt (named.trans (by decide))

/-- Settles O45: LowestPressed names the key, or none. -/
theorem waitKeyTakesTheLowestKeyOrRewinds : Obligations.WaitKeyTakesTheLowestKeyOrRewinds := by
  unfold Obligations.WaitKeyTakesTheLowestKeyOrRewinds
  refine fun x s => ⟨encodes_of_encode (fun _ => rfl) fun _ => rfl, fun k named down lowerUp => ?_, fun up => ?_⟩
  · have takes := execWaitKey_of_some (x := x) (lowestPressed_eq_some.mpr ⟨named, down, lowerUp⟩)
    have registers := fun r => getV_setV x r (BitVec.ofNat 8 k) s
    refine ⟨_, takes, rfl, ?key, fun r notX => ?others, keepsExcept_of_complete keepsExcept_setV rfl⟩
    case key => rw [getV_of_complete rfl (registers x), if_pos rfl, toNat_ofNat_key named]
    case others => rw [getV_of_complete rfl (registers r), if_neg notX]
  · have rewinds := execWaitKey_of_none (x := x) (lowestPressed_eq_none.mpr up)
    exact ⟨_, rewinds, rfl, rfl, keepsExcept_of_complete keepsExcept_rewind rfl⟩

/-! ### Timers -/

/-- `sound_active` is whether ST is nonzero (R213). -/
theorem soundActive_iff : s.soundActive = true ↔ s.st ≠ 0 := bne_iff_ne

/-- Settles O47: GetDelay is one register write; the other two have one timer in their row of `writtenParts`. -/
theorem timerInstructionsMoveOneByte : Obligations.TimerInstructionsMoveOneByte := by
  unfold Obligations.TimerInstructionsMoveOneByte
  refine fun x => ⟨?wordGetDelay, ?wordSetDelay, ?wordSetSound, ?getDelay, fun s => ?setDelay, fun s => ?setSound⟩
  case wordGetDelay | wordSetDelay | wordSetSound => exact encodes_of_encode (fun _ => rfl) fun _ => rfl
  case getDelay => exact writesRegister_of_setV fun _ => rfl
  case setDelay => exact ⟨_, rfl, rfl, rfl, exec_keepsExcept (i := .setDelay x) rfl⟩
  case setSound => exact ⟨_, rfl, rfl, rfl, soundActive_iff, exec_keepsExcept (i := .setSound x) rfl⟩

end Sys2Proof.Machine
end

section
/-! PROOFS. The step errors (R202, R203): an instruction's answer is an error only on the branch of a shared operation that raises it, and
that branch names the error and its condition. -/

namespace Sys2Proof.Machine

variable {s t u : State} {e e' : StepError} {p : Word} {n : Nat}

/-! ### The error an outcome answers -/

theorem response_ne_stepError_of_complete (h : complete u = .next t) : t.response ≠ .stepError e p := by
  rw [response_of_complete h]
  exact Response.noConfusion

theorem stepError_of_raise (h : raise e' s = .next t) (error : t.response = .stepError e p) : e = e' := by
  obtain rfl := raise_eq_next.mp h
  cases error
  rfl

/-! ### The error an operation with more than one outcome answers -/

/-- The address R64 reports is the lowest of the `n` at I that does not exist. -/
theorem lowestMissing_of_withinRange (h : withinRange n s (complete u) = .next t) (error : t.response = .stepError e p) :
    ∃ a, e = .addressOutOfRange .memory a .execute ∧ ramSize ≤ a ∧ s.i.toNat ≤ a ∧ a < s.i.toNat + n ∧
      ∀ b, s.i.toNat ≤ b → b < a → b < ramSize := by
  obtain ⟨-, runs⟩ | ⟨pos, exceeds, raises⟩ := withinRange_cases n s (complete u)
  · exact absurd error (response_ne_stepError_of_complete (runs ▸ h))
  · exact ⟨max s.i.toNat ramSize, stepError_of_raise (raises ▸ h) error, le_max_right .., le_max_left .., by omega,
      fun b _ below => by omega⟩

theorem missingKey_of_keyAt {k : Byte} {after : Bool → State} (h : keyAt k s (fun down => complete (after down)) = .next t)
    (error : t.response = .stepError e p) : nKeys ≤ k.toNat ∧ e = .addressOutOfRange .keypad k.toNat .execute := by
  by_cases named : k.toNat < nKeys
  · exact absurd error (response_ne_stepError_of_complete (keyAt_of_lt named ▸ h))
  · have missing := Nat.le_of_not_lt named
    exact ⟨missing, stepError_of_raise (keyAt_of_missing missing ▸ h) error⟩

theorem stackFull_of_callSub {nnn : BitVec 12} (h : exec (.callSub nnn) s = .next t)
    (error : t.response = .stepError e p) : e = .stackOverflow s.sp.toNat ∧ stackDepth ≤ s.sp.toNat := by
  by_cases room : s.sp.toNat < stackDepth
  · exact absurd error (response_ne_stepError_of_complete (execCallSub_of_lt room ▸ h))
  · have full := Nat.le_of_not_lt room
    exact ⟨stepError_of_raise (execCallSub_of_full full ▸ h) error, full⟩

theorem stackEmpty_of_ret (h : exec .ret s = .next t) (error : t.response = .stepError e p) :
    e = .stackUnderflow 0 ∧ s.sp.toNat = 0 := by
  by_cases empty : s.sp = 0
  · exact ⟨stepError_of_raise (execRet_of_empty empty ▸ h) error, BitVec.toNat_eq.mp empty⟩
  · have pos : 0 < s.sp.toNat := BitVec.toNat_pos_of_ne_zero empty
    by_cases depth : s.sp.toNat ≤ stackDepth
    · exact absurd error (response_ne_stepError_of_complete (execRet_of_pos pos depth ▸ h))
    · rw [execRet_of_beyond (Nat.lt_of_not_le depth)] at h
      contradiction

/-- Settles O10: an instruction that can raise does so on one branch, and every other instruction completes. -/
theorem stepErrorsByInstruction : Obligations.StepErrorsByInstruction := by
  unfold Obligations.StepErrorsByInstruction
  intro i s t e p h error
  cases i with
  | call nnn => exact .inl ⟨nnn, rfl, addressOf_eq_ofNat nnn ▸ stepError_of_raise h error⟩
  | callSub nnn => exact .inr (.inl ⟨nnn, rfl, stackFull_of_callSub h error⟩)
  | ret => exact .inr (.inr (.inl ⟨rfl, stackEmpty_of_ret h error⟩))
  | draw x y n =>
    obtain ⟨a, lowest⟩ := lowestMissing_of_withinRange h error
    exact .inr (.inr (.inr (.inl ⟨n.val, a, .inl ⟨x, y, n, rfl, rfl⟩, lowest⟩)))
  | bcd x =>
    obtain ⟨a, lowest⟩ := lowestMissing_of_withinRange h error
    exact .inr (.inr (.inr (.inl ⟨3, a, .inr (.inl ⟨x, rfl, rfl⟩), lowest⟩)))
  | memStore x =>
    obtain ⟨a, lowest⟩ := lowestMissing_of_withinRange h error
    exact .inr (.inr (.inr (.inl ⟨x.val + 1, a, .inr (.inr (.inl ⟨x, rfl, rfl⟩)), lowest⟩)))
  | memLoad x =>
    obtain ⟨a, lowest⟩ := lowestMissing_of_withinRange h error
    exact .inr (.inr (.inr (.inl ⟨x.val + 1, a, .inr (.inr (.inr ⟨x, rfl, rfl⟩)), lowest⟩)))
  | skipIfKey x =>
    have missing := missingKey_of_keyAt (after := fun down => skipIf down s) h error
    exact .inr (.inr (.inr (.inr ⟨x, .inl rfl, missing⟩)))
  | skipIfNotKey x =>
    have missing := missingKey_of_keyAt (after := fun down => skipIf (!down) s) h error
    exact .inr (.inr (.inr (.inr ⟨x, .inr rfl, missing⟩)))
  | waitKey x =>
    obtain ⟨_, takes⟩ | rewinds := execWaitKey_eq_next h
    · exact absurd error (response_ne_stepError_of_complete takes)
    · exact absurd error (response_ne_stepError_of_complete rewinds)
  | _ => exact absurd error (response_ne_stepError_of_complete h)

end Sys2Proof.Machine
end

section
/-! PROOFS. The host commands TICK, KEY_DOWN, KEY_UP, READ_FB and READ_STATE (R211 to R218): one equation per outcome of a key command, a
timer's tick as a number, and the run of several TICKs. -/

namespace Sys2Proof.Machine

variable {s t : State} {parts : List Part} {down : Bool} {k : Nat} {rest : List Command}

/-! ### The read commands -/

/-- Settles O54: each command writes the response alone. -/
theorem readCommandsChangeNothing : Obligations.ReadCommandsChangeNothing := by
  unfold Obligations.ReadCommandsChangeNothing
  intro s rest
  refine ⟨fun hp => ?readFb, fun hp => ?readState⟩
  case readFb => exact ⟨_, step_of_pending hp, rfl, rfl, KeepsExcept.response ..⟩
  case readState => exact ⟨_, step_of_pending hp, rfl, rfl, KeepsExcept.response ..⟩

/-! ### The key commands -/

theorem runCommand_key : runCommand (if down then .keyDown k else .keyUp k) s = cmdKey down k s := by
  cases down <;> rfl

theorem cmdKey_of_lt (named : k < nKeys) : cmdKey down k s = complete { s with key := s.key.set k down named } :=
  dif_pos named

theorem cmdKey_of_missing (missing : nKeys ≤ k) : cmdKey down k s = refuseCommand (.keyIndexOutOfRange k) s :=
  dif_neg (Nat.not_lt_of_le missing)

theorem keepsExcept_key {key : Vector Bool nKeys} : KeepsExcept [.key] s { s with key := key } := by
  simp [KeepsExcept, State.byteAt, getV]

/-- Settles O52: the two outcomes of a key command. -/
theorem keyCommandsSetOneKey : Obligations.KeyCommandsSetOneKey := by
  unfold Obligations.KeyCommandsSetOneKey
  intro s k rest down hp
  have runs := (step_of_pending hp).trans runCommand_key
  refine ⟨fun named => ?sets, fun missing => ?refuses⟩
  case sets =>
    exact ⟨_, runs.trans (cmdKey_of_lt named), rfl, Vector.getElem_set_self named,
      fun j hj other => Vector.getElem_set_ne named hj other.symm, keepsExcept_of_complete keepsExcept_key rfl⟩
  case refuses => exact ⟨_, runs.trans (cmdKey_of_missing missing), rfl, rfl, KeepsExcept.response ..⟩

/-! ### TICK -/

/-- A timer's tick is the truncated subtraction of naturals (R211, R212). -/
theorem toNat_countDown (b : Byte) : (countDown b).toNat = b.toNat - 1 := by
  unfold countDown
  split
  case isTrue zero => simp [zero]
  case isFalse running => bv_omega

theorem keepsExcept_timers {dt st : Byte} : KeepsExcept [.dt, .st] s { s with dt := dt, st := st } := by
  simp [KeepsExcept, State.byteAt, getV]

/-- Settles O50: each timer's tick is one subtraction. -/
theorem tickCountsEachTimerDown : Obligations.TickCountsEachTimerDown := by
  unfold Obligations.TickCountsEachTimerDown
  intro s rest hp
  exact ⟨_, step_of_pending hp, rfl, toNat_countDown s.dt, toNat_countDown s.st,
    keepsExcept_of_complete keepsExcept_timers rfl⟩

theorem KeepsExcept.pending (h : KeepsExcept parts s t) : t.pending = s.pending := by
  obtain ⟨-, -, -, -, -, -, -, -, -, -, -, hp, -⟩ := h
  exact hp

/-- A run of TICKs, by induction on their number: the first is O50's. -/
theorem run_ticks (n : Nat) (hp : s.pending = List.replicate n .tick ++ rest) :
    ∃ t, Sys2Proof.core.run n s = .next t ∧ t.dt.toNat = s.dt.toNat - n ∧ t.st.toNat = s.st.toNat - n ∧
      t.pending = rest := by
  induction n generalizing s with
  | zero => exact ⟨s, rfl, rfl, rfl, hp⟩
  | succ n ih =>
    obtain ⟨u, first, -, dt, st, frame⟩ := tickCountsEachTimerDown s _ hp
    obtain ⟨t, runs, dt', st', left⟩ := ih frame.pending
    exact ⟨t, (run_succ_of_next n first).trans runs, by omega, by omega, left⟩

theorem soundActive_of_st_zero (silent : s.st.toNat = 0) : s.soundActive = false :=
  Bool.eq_false_iff.mpr fun active => soundActive_iff.mp active (BitVec.eq_of_toNat_eq silent)

/-- Settles O51: a byte is at most 255, so 255 TICKs leave ST at 0. -/
theorem ticksReachZeroAndStay : Obligations.TicksReachZeroAndStay := by
  unfold Obligations.TicksReachZeroAndStay
  intro n s rest hp
  obtain ⟨t, runs, dt, st, left⟩ := run_ticks n hp
  have stBelow256 : s.st.toNat < 256 := s.st.isLt
  exact ⟨t, runs, dt, st, fun _ => soundActive_of_st_zero (by omega), left⟩

end Sys2Proof.Machine
end

section
/-! PROOFS. The host command LOAD (R244 to R246): one equation per outcome, and what an accepted ROM leaves in memory. -/

namespace Sys2Proof.Machine

variable {s : State} {a j : Nat} {bs rom : List Byte}

/-! ### The three outcomes -/

theorem cmdLoad_of_empty (empty : rom.length = 0) : cmdLoad rom s = refuseCommand .emptyRom s := if_pos empty

theorem cmdLoad_of_fits (bytes : 0 < rom.length) (fits : rom.length ≤ ramSize - s.config.startOffset.word.toNat) :
    cmdLoad rom s = complete (s.storeBytes s.config.startOffset.word.toNat rom) :=
  (if_neg bytes.ne').trans (if_neg (Nat.not_lt_of_le fits))

theorem cmdLoad_of_tooLarge (large : ramSize - s.config.startOffset.word.toNat < rom.length) :
    cmdLoad rom s = refuseCommand (.romTooLarge rom.length) s :=
  (if_neg (Nat.ne_zero_of_lt large)).trans (if_pos large)

/-! ### An accepted ROM -/

/-- A store of bytes changes no part but memory. -/
theorem keepsExcept_storeBytes : KeepsExcept [.mem] s (s.storeBytes a bs) := by
  simp [KeepsExcept, getV]

/-- A stored byte reads back at its own address (R76). -/
theorem byteAt_storeBytes_eq_getElem (hs : s.Inv) (fits : a + bs.length ≤ ramSize) (hj : j < bs.length) :
    (s.storeBytes a bs).byteAt (a + j) = bs[j] :=
  (byteAt_storeBytes_of_lt hs fits hj).trans (List.getD_eq_getElem _ _ hj)

/-- Settles O53: an accepted ROM is one store of bytes that ends within memory, and a refusal writes the response alone. -/
theorem loadCopiesTheRomOrRefuses : Obligations.LoadCopiesTheRomOrRefuses := by
  unfold Obligations.LoadCopiesTheRomOrRefuses
  intro s rom rest hs hp
  have runs : step s = cmdLoad rom { s with pending := rest } := step_of_pending hp
  refine ⟨fun bytes fits => ?copies, fun empty => ?refusesEmpty, fun large => ?refusesLarge⟩
  case copies =>
    have withinMemory : s.config.startOffset.word.toNat + rom.length ≤ ramSize := by omega
    exact ⟨_, runs.trans (cmdLoad_of_fits bytes fits), rfl, fun _ hj => byteAt_storeBytes_eq_getElem hs withinMemory hj,
      keepsMemoryOutside_storeBytes hs withinMemory, keepsExcept_of_complete keepsExcept_storeBytes rfl⟩
  case refusesEmpty => exact ⟨_, runs.trans (cmdLoad_of_empty empty), rfl, rfl, KeepsExcept.response ..⟩
  case refusesLarge => exact ⟨_, runs.trans (cmdLoad_of_tooLarge large), rfl, rfl, KeepsExcept.response ..⟩

end Sys2Proof.Machine
end
